-- ==== Sys2Proof/Word.lean ====
section
/-!
DEFINITION. The bit-vector types of the hf/stun codec block and nothing else (spec/00_scope.md R6: "Bytes are 8 bits";
spec/10_state.md R11: word registers of 32 bits). A byte sequence is a list in wire order, offset 0 first (R6, R16).
-/

namespace Sys2Proof

/-- One byte, the addressable unit of every buffer (R6, R30). -/
abbrev Byte := BitVec 8

/-- A 16-bit quantity: the TLV type, the TLV length field, the port field (R5). -/
abbrev Half := BitVec 16

/-- A word register or a command word (R11, R50). -/
abbrev Word := BitVec 32

/-- A finite byte sequence, offset 0 first: the value of a buffer (R16). -/
abbrev Bytes := List Byte

end Sys2Proof
end

