-- ==== Sys2Proof/Syntax.lean ====
section
/-!
DEFINITION. The nine commands of spec/30_encoding.md R54, one constructor per row of spec/opcode_table.json. Every operand
but the type of TLV.ENC is implicit (R51, R53): a named register or buffer that the meaning reads.
-/

namespace Sys2Proof

/-- A command of `SCB command set 1` (R1, R54). -/
inductive Instr where
  /-- `TLV.ENC type`: frame VAL as one STUN attribute (R70); `type` is IMM16, any of 0..0xFFFF (R52). -/
  | tlvEnc (type : Half)
  /-- `MA.ENC`: build the plain MAPPED-ADDRESS value (R82). -/
  | maEnc
  /-- `MA.VAL`: validate the value in ATTR (R84). -/
  | maVal
  /-- `MA.PORT`: read the port field of ATTR (R85). -/
  | maPort
  /-- `MA.ADDR`: read the address field of ATTR (R87). -/
  | maAddr
  /-- `XMA.CHK`: check the header in HDR (R102). -/
  | xmaChk
  /-- `XMA.ENC`: build the XOR-MAPPED-ADDRESS value (R103). -/
  | xmaEnc
  /-- `XMA.PORT`: recover the port of an XOR-MAPPED-ADDRESS value (R104). -/
  | xmaPort
  /-- `XMA.ADDR`: recover the address of an XOR-MAPPED-ADDRESS value (R105). -/
  | xmaAddr
deriving DecidableEq, Repr

end Sys2Proof
end

