-- ==== Sys2Proof/Decode.lean ====
section
/-!
DEFINITION. The decoder of spec/30_encoding.md, total on all 2^32 words (R56) and rejecting by name (R55), after it the
encoder from the same table (R51, R54), and the assembler syntax of a command (R58).
-/

namespace Sys2Proof

/-- The nine mnemonics of R54. -/
inductive Mnemonic where
  | tlvEnc | maEnc | maVal | maPort | maAddr | xmaChk | xmaEnc | xmaPort | xmaAddr
deriving DecidableEq, Repr

/-- One row of the opcode map of R54: a word `w` selects it when `w & mask == match`. -/
structure OpcodeRow where
  mnemonic : Mnemonic
  bits     : Word
  mask     : Word
deriving DecidableEq, Repr

/-- The opcode map of R54, in its order. -/
def opcodeTable : List OpcodeRow :=
  [ ⟨.tlvEnc,  0x00000001#32, 0x0000FFFF#32⟩,
    ⟨.maEnc,   0x00000010#32, 0xFFFFFFFF#32⟩,
    ⟨.maVal,   0x00000011#32, 0xFFFFFFFF#32⟩,
    ⟨.maPort,  0x00000012#32, 0xFFFFFFFF#32⟩,
    ⟨.maAddr,  0x00000013#32, 0xFFFFFFFF#32⟩,
    ⟨.xmaChk,  0x00000020#32, 0xFFFFFFFF#32⟩,
    ⟨.xmaEnc,  0x00000021#32, 0xFFFFFFFF#32⟩,
    ⟨.xmaPort, 0x00000022#32, 0xFFFFFFFF#32⟩,
    ⟨.xmaAddr, 0x00000023#32, 0xFFFFFFFF#32⟩ ]

/-- Does the word select the row? (R54) -/
def OpcodeRow.selects (r : OpcodeRow) (w : Word) : Bool :=
  w &&& r.mask == r.bits

/-- Field `OPC`, `w[7:0]` (R51). -/
def opcField (w : Word) : Byte := w.extractLsb' 0 8

/-- Field `ZERO`, `w[15:8]` (R51). -/
def zeroField (w : Word) : Byte := w.extractLsb' 8 8

/-- Field `IMM16` of format T, `ZERO16` of format N: `w[31:16]`, unsigned (R51, R52). -/
def imm16Field (w : Word) : Half := w.extractLsb' 16 16

/-- The command a row names, with the immediate of format T (R51, R52). -/
def Mnemonic.instr (imm : Half) : Mnemonic → Instr
  | .tlvEnc => .tlvEnc imm
  | .maEnc => .maEnc
  | .maVal => .maVal
  | .maPort => .maPort
  | .maAddr => .maAddr
  | .xmaChk => .xmaChk
  | .xmaEnc => .xmaEnc
  | .xmaPort => .xmaPort
  | .xmaAddr => .xmaAddr

/-- The three ways R55 gives for a word to be an illegal command. -/
inductive IllegalWord where
  /-- OPC is not one of the nine. -/
  | unassignedOpcode
  /-- `w[15:8]` is not zero. -/
  | zeroFieldSet
  /-- An OPC of format N with `w[31:16]` not zero. -/
  | zero16FieldSet
deriving DecidableEq, Repr

/-- Is OPC one of the nine? (R54) -/
def opcAssigned (w : Word) : Bool :=
  opcodeTable.any fun r => opcField r.bits == opcField w

/-- The name of the first cause of R55, for a word that selects no row. -/
def illegalCause (w : Word) : IllegalWord :=
  if opcAssigned w = false then .unassignedOpcode
  else if zeroField w = 0 then .zero16FieldSet
  else .zeroFieldSet

/-- Decode a command word: the row it selects, else an illegal command by name (R50, R54 to R56). -/
def decode (w : Word) : Except IllegalWord Instr :=
  match opcodeTable.find? (fun r => r.selects w) with
  | some r => .ok (r.mnemonic.instr (imm16Field w))
  | none => .error (illegalCause w)

/-- The word of a command (R54, R58): format T is `(type << 16) | 0x0001`, each other command its one word. -/
def encode : Instr → Word
  | .tlvEnc type => (type.setWidth 32 <<< 16) ||| 0x00000001#32
  | .maEnc => 0x00000010#32
  | .maVal => 0x00000011#32
  | .maPort => 0x00000012#32
  | .maAddr => 0x00000013#32
  | .xmaChk => 0x00000020#32
  | .xmaEnc => 0x00000021#32
  | .xmaPort => 0x00000022#32
  | .xmaAddr => 0x00000023#32

/-- The mnemonic of a command (R58). -/
def Instr.mnemonic : Instr → Mnemonic
  | .tlvEnc _ => .tlvEnc
  | .maEnc => .maEnc
  | .maVal => .maVal
  | .maPort => .maPort
  | .maAddr => .maAddr
  | .xmaChk => .xmaChk
  | .xmaEnc => .xmaEnc
  | .xmaPort => .xmaPort
  | .xmaAddr => .xmaAddr

/-- The spelling of a mnemonic in a listing (R58). -/
def Mnemonic.spelling : Mnemonic → String
  | .tlvEnc => "TLV.ENC"
  | .maEnc => "MA.ENC"
  | .maVal => "MA.VAL"
  | .maPort => "MA.PORT"
  | .maAddr => "MA.ADDR"
  | .xmaChk => "XMA.CHK"
  | .xmaEnc => "XMA.ENC"
  | .xmaPort => "XMA.PORT"
  | .xmaAddr => "XMA.ADDR"

/-- A command line of a listing: a mnemonic and, for TLV.ENC, its type (R58). -/
structure AsmLine where
  mnemonic : Mnemonic
  operand  : Option Nat
deriving DecidableEq, Repr

/-- A command line that R58 allows: TLV.ENC with a number 0..0xFFFF, any other mnemonic bare. -/
def AsmLine.wf (l : AsmLine) : Bool :=
  match l.mnemonic, l.operand with
  | .tlvEnc, some t => decide (t ≤ 0xFFFF)
  | .tlvEnc, none => false
  | _, some _ => false
  | _, none => true

/-- The command a listing line stands for, if R58 allows the line. -/
def AsmLine.instr? (l : AsmLine) : Option Instr :=
  if l.wf then some (l.mnemonic.instr (BitVec.ofNat 16 (l.operand.getD 0))) else none

/-- The word a listing line assembles to, if R58 allows the line. -/
def assemble (l : AsmLine) : Option Word :=
  l.instr?.map encode

/-- The command word whose bits, numbered as the opcode table numbers them, are `w` (one 32-bit word, accessed whole, so no byte
order applies: R33, R50). -/
def tableWord (nbits w : Nat) : Word := BitVec.ofNat 32 (w % 2 ^ nbits)

/-- The command the decoder reads from an instruction of the opcode table given as `nbits` bits. -/
def decodeTableWord (nbits w : Nat) : Option Instr :=
  match decode (tableWord nbits w) with
  | .ok i => some i
  | .error _ => none

end Sys2Proof
end

