-- ==== Sys2Proof/Machine/Flags.lean ====
section
/-!
DEFINITION. The error kinds of spec/60_exceptions.md R120 and the fields of STATUS (spec/10_state.md R15).
-/

namespace Sys2Proof.Machine

/-- The four error kinds a command can raise (R120). -/
inductive ErrorKind where
  /-- Absent required buffer, wrong-length header, header flag bits (R121). -/
  | invalidInput
  /-- Address length neither 4 nor 16, on encode only (R122). -/
  | unsupportedAddressFamily
  /-- Bytes that are not a legal instance of the value (R123). -/
  | malformedAttribute
  /-- A command word that names no command (R124). -/
  | illegalCommand
deriving DecidableEq, Repr

/-- `code(E)`: the number STATUS.ERR reports (R120). -/
def ErrorKind.code : ErrorKind → BitVec 3
  | .invalidInput => 1
  | .unsupportedAddressFamily => 2
  | .malformedAttribute => 3
  | .illegalCommand => 4

/-- STATUS.ERR = 0: success (R120). -/
def okCode : BitVec 3 := 0

/-- STATUS after a command that ends with `err`: DONE set, every reserved bit 0, so 0x00000100 + err (R15, R125). -/
def statusWord (err : BitVec 3) : Word :=
  err.setWidth 32 ||| 0x00000100#32

/-- Field `ERR`, STATUS[2:0] (R15). -/
def errField (status : Word) : BitVec 3 := status.extractLsb' 0 3

/-- Field `DONE`, STATUS[8] (R15). -/
def doneField (status : Word) : Bool := status.getLsbD 8

end Sys2Proof.Machine
end

