-- ==== Sys2Proof/Config.lean ====
section
/-!
DEFINITION. The implementation parameters of spec/00_scope.md R5, each with "the value taken" there. `PORT_W` and `CMD_W` are
the width of `Word`; `BUS_BINDING` is open and unused (R36), so it has no definition. The spec leaves no value open that a
command could produce (spec/93_implementation_defined.md has no `any value` row), so there is no free value here.
-/

namespace Sys2Proof.Config

/-- `HDR_CAP`: most bytes the HDR buffer can hold (R5). -/
def hdrCap : Nat := 32

/-- `ADDR_CAP`: most bytes the ADDR buffer can hold (R5). -/
def addrCap : Nat := 32

/-- `ATTR_CAP`: most bytes the ATTR buffer can hold (R5). -/
def attrCap : Nat := 32

/-- `VAL_CAP`: most bytes the VAL buffer can hold (R5). -/
def valCap : Nat := 65535

/-- `OUT_CAP`: most bytes the OUT buffer can hold, derived in R5 as max(20, 4 + roundUp4(VAL_CAP)). -/
def outCap : Nat := 65540

end Sys2Proof.Config
end

