-- ==== Sys2Proof/Machine/HostAction.lean ====
section
/-!
DEFINITION. What the host can name and do: the ten items of spec/10_state.md R11 with their numbers, capacities and host
access, the host actions of spec/20_memory.md R38, reset as an event of the outside world (spec/70_reset_and_hazards.md R140),
and what a host read returns. The listing spelling of each action is spec/30_encoding.md R58.
-/

namespace Sys2Proof.Machine

/-- The five buffers, each an address space of its own (R11, R30). -/
inductive Buffer where
  | hdr | addr | val | attr | out
deriving DecidableEq, Repr

/-- The ten items of R11: five word registers and five buffers. -/
inductive Item where
  | cmd | status | port | rport | outLen
  | buffer (b : Buffer)
deriving DecidableEq, Repr

/-- A buffer's number inside the block (R11). -/
def Buffer.number : Buffer → Nat
  | .hdr => 0 | .addr => 1 | .val => 2 | .attr => 3 | .out => 4

/-- An item's number inside the block; word registers and buffers are numbered separately (R11). -/
def Item.number : Item → Nat
  | .cmd => 0 | .status => 1 | .port => 2 | .rport => 3 | .outLen => 4
  | .buffer b => b.number

/-- The most bytes a buffer can hold (R5, R11). -/
def Buffer.capacity : Buffer → Nat
  | .hdr => Config.hdrCap
  | .addr => Config.addrCap
  | .val => Config.valCap
  | .attr => Config.attrCap
  | .out => Config.outCap

/-- The host access column of R11: may the host load this buffer? -/
def Buffer.hostLoads : Buffer → Bool
  | .hdr | .addr | .val | .attr => true
  | .out => false

/-- Only HDR and ATTR have the value absent (R17). -/
def Buffer.canBeAbsent : Buffer → Bool
  | .hdr | .attr => true
  | .addr | .val | .out => false

/-- The buffers `HostCopy` may fill from OUT (R38). -/
def Buffer.copiesFromOut : Buffer → Bool
  | .val | .attr => true
  | .hdr | .addr | .out => false

/-- The host access column of R11: every item but CMD can be read. -/
def Item.hostReads : Item → Bool
  | .cmd => false
  | .status | .port | .rport | .outLen | .buffer _ => true

/-- The precondition of `HostSetPort(v)`: -2^31 <= v <= 2^31 - 1 (R38). -/
def portInRange (v : Int) : Bool :=
  decide (-2147483648 ≤ v) && decide (v ≤ 2147483647)

/-- The host actions of R38, each one atomic step; R58 gives the listing line of each. -/
inductive HostAction where
  /-- `HostLoad(B, s)`, listing `H.LOAD B, b0 ... bn`. -/
  | load (b : Buffer) (bytes : Bytes)
  /-- `HostAbsent(B)`, listing `H.ABSENT B`. -/
  | absent (b : Buffer)
  /-- `HostSetPort(v)`, listing `H.PORT v`; `v` is an integer, signed (R13). -/
  | setPort (v : Int)
  /-- `HostCmd(w)`: a write of the 32-bit word `w` to CMD (R18, R50). -/
  | cmd (w : Word)
  /-- `HostRead(X)`, listing `H.READ X`. -/
  | read (x : Item)
  /-- `HostCopy(B, OUT)`, listing `H.COPY B, OUT`. -/
  | copy (b : Buffer)
deriving DecidableEq, Repr

/-- What reaches the block from outside: a host action, or the platform's reset, which can come at any point between two
host actions (R140). -/
inductive Event where
  | action (a : HostAction)
  | reset
deriving DecidableEq, Repr

/-- What a host read returns: a whole word, a buffer's whole byte sequence, or absent (R38). -/
inductive Answer where
  | word (w : Word)
  | bytes (bs : Bytes)
  | absent
deriving DecidableEq, Repr

end Sys2Proof.Machine
end

