-- ==== Sys2Proof/Machine/State.lean ====
section
/-!
DEFINITION. The state of the block (spec/10_state.md R11), the reasons a step can stop, and the state after reset (R24).
CMD holds nothing (R18) and OUT_LEN is the length of OUT (R19): neither is a field. Two fields are the model's own and not
the block's: the host's agenda and what its reads returned (R20, log entries 2 and 3).
-/

namespace Sys2Proof.Machine

/-- The five buffers of R11, each a byte sequence and nothing beyond it (R16); HDR and ATTR can be absent (`none`, R17). -/
structure Memory where
  hdr  : Option Bytes
  addr : Bytes
  val  : Bytes
  attr : Option Bytes
  out  : Bytes
deriving DecidableEq, Repr

/-- The whole state of the model: the block's items of R11, then the host's side. -/
structure State where
  /-- `STATUS`: ERR in bits 2:0, DONE in bit 8, the rest reserved (R15). -/
  status  : Word
  /-- `PORT`: the port operand, a two's complement signed integer (R13). -/
  port    : Word
  /-- `RPORT`: the result of the port accessors, zero-extended (R14). -/
  rport   : Word
  /-- The buffers HDR, ADDR, VAL, ATTR, OUT (R16). -/
  mem     : Memory
  /-- The model's own: what the host has still to do, next first (R20). -/
  agenda  : List Event
  /-- The model's own: what the host's reads returned, oldest first (R38). -/
  answers : List Answer
deriving DecidableEq, Repr

/-- Why a step of the model can stop with a fault. The block itself never stops (R129): its errors are codes in STATUS, and a
command that reports one goes on to a next state. Both reasons are the model's guards on primitives that R7 defines on a part
of their arguments only; no command meets one in a state whose VAL is within capacity (log entry 4). -/
inductive Fault where
  /-- Raised by `byteAt` and `memRead`: a read outside the buffer's length, which R31 leaves undefined. Safe. -/
  | outsideBuffer
  /-- Raised by `lengthField`: `bytes_be16` of a length above 65535, which R7 leaves undefined and N12 says the source does
  not settle. Safe. -/
  | lengthTooLong
deriving DecidableEq, Repr

/-- Why the model gives an action no step. -/
inductive Refusal where
  /-- Raised by a refused arm of `exec` only: the command has no meaning yet. Safe. -/
  | notModelled (mnemonic : String)
  /-- Raised by `hostLoad` and `hostCopy`: more bytes than the buffer can hold; the action is refused, it has no step (R38).
  Safe. -/
  | overCapacity
  /-- Raised by `hostSetPort`: an integer outside the precondition of R38. Safe. -/
  | portOutOfRange
  /-- Raised by every host operation: R11 and R38 give the host no such action (loading OUT, making ADDR absent, reading CMD,
  copying to HDR). Safe. -/
  | noSuchAction
deriving DecidableEq, Repr

/-- The canonical form of memory: each buffer within its capacity (R5, R16). A byte sequence has no other redundancy: two buffers
are equal exactly when they have the same length and the same bytes (R16). -/
def Memory.wf (m : Memory) : Bool :=
  decide ((m.hdr.getD []).length ≤ Buffer.hdr.capacity) &&
  decide (m.addr.length ≤ Buffer.addr.capacity) &&
  decide (m.val.length ≤ Buffer.val.capacity) &&
  decide ((m.attr.getD []).length ≤ Buffer.attr.capacity) &&
  decide (m.out.length ≤ Buffer.out.capacity)

/-- The buffers after reset (R24): HDR and ATTR absent, the others empty. -/
def Memory.reset : Memory :=
  { hdr := none, addr := [], val := [], attr := none, out := [] }

/-- The state after reset (R24), with nothing on the host's agenda and nothing read. -/
def State.reset : State :=
  { status := 0, port := 0, rport := 0, mem := Memory.reset, agenda := [], answers := [] }

end Sys2Proof.Machine
end

