-- ==== Sys2Proof/Machine/Ops.lean ====
section
/-!
DEFINITION. The primitives of spec/00_scope.md R7 over buffers and registers, and the two ways a command ends
(spec/60_exceptions.md R125): `raiseError`, the block's one form of taking an exception, and `succeed`. The block has no trap,
saves nothing and has no return from one (R125, R129).
-/

namespace Sys2Proof.Machine

/-! ### How a command's calculation stops -/

/-- A calculation stops early by raising an error kind (R125), or on a primitive used outside its domain (R7, R31). -/
inductive Stop where
  | error (e : ErrorKind)
  | fault (f : Fault)
deriving DecidableEq, Repr

/-- A command's calculation: pure, from operands to a value, or a stop (R10). -/
abbrev Calc (α : Type) := Except Stop α

/-- `raise E` inside a command's pseudocode (R7, R125): nothing after it is performed. -/
def raised {α : Type} (e : ErrorKind) : Calc α := .error (.error e)

/-- A primitive used where R7 does not define it. -/
def undefinedUse {α : Type} (f : Fault) : Calc α := .error (.fault f)

/-! ### Bytes and 2-byte fields -/

/-- `zeros(n)` (R7). -/
def zeros (n : Nat) : Bytes := List.replicate n 0x00#8

/-- `roundUp4(n)`: the least multiple of 4 that is not less than n (R7, R71). -/
def roundUp4 (n : Nat) : Nat := 4 * ((n + 3) / 4)

/-- The high byte of a 2-byte field, bits 15:8 (R6, R32). -/
def highByte (v : Half) : Byte := v.extractLsb' 8 8

/-- The low byte of a 2-byte field, bits 7:0 (R6, R32). -/
def lowByte (v : Half) : Byte := v.extractLsb' 0 8

/-- `bytes_be16(v)`: the byte at the lower offset is the more significant (R7, R32). -/
def bytesBe16 (v : Half) : Bytes := [highByte v, lowByte v]

/-- `be16(b)` of the 2-byte sequence `hi lo`: `hi * 256 + lo` (R7, R32). -/
def be16 (hi lo : Byte) : Half := hi ++ lo

/-- A length as the 16-bit length field: `bytes_be16` is defined for 0..65535 only (R7, R72). -/
def lengthField (n : Nat) : Calc Half :=
  if n ≤ 65535 then .ok (BitVec.ofNat 16 n) else undefinedUse .lengthTooLong

/-- `MemRead(B:off, n)`: the bytes at offsets off .. off+n-1, defined only inside the length (R7, R31). -/
def memRead (b : Bytes) (off n : Nat) : Calc Bytes :=
  if off + n ≤ b.length then .ok ((b.drop off).take n) else undefinedUse .outsideBuffer

/-- `MemWrite(B:off, n, v)`, n the length of v: those bytes are set and no other, defined only inside the length (R7, R31). The
one write a command makes is `OUT <- s`, the whole buffer from offset 0 (`Memory.store`; `memWrite_whole` says they agree). -/
def memWrite (b : Bytes) (off : Nat) (v : Bytes) : Calc Bytes :=
  if off + v.length ≤ b.length then .ok (b.take off ++ v ++ b.drop (off + v.length)) else undefinedUse .outsideBuffer

/-- `B[i]`: the byte at offset i, defined only inside the length (R7, R31). -/
def byteAt (b : Bytes) (i : Nat) : Calc Byte :=
  match b[i]? with
  | some x => .ok x
  | none => undefinedUse .outsideBuffer

/-- `be16(MemRead(B:off, 2))` (R7, R32). -/
def readBe16 (b : Bytes) (off : Nat) : Calc Half := do
  let hi ← byteAt b off
  let lo ← byteAt b (off + 1)
  pure (be16 hi lo)

/-- Byte-lane exclusive-or of two sequences, lane by lane (R7, R108). -/
def xorLanes (xs ks : Bytes) : Bytes := List.zipWith (fun x k => x ^^^ k) xs ks

/-! ### Buffers -/

/-- The value of a buffer: absent, or its whole byte sequence (R16, R17). -/
def Memory.fetch (m : Memory) : Buffer → Option Bytes
  | .hdr => m.hdr
  | .addr => some m.addr
  | .val => some m.val
  | .attr => m.attr
  | .out => some m.out

/-- The buffer becomes present and holds exactly the bytes (R7 `OUT <- s`, R38 `HostLoad`). -/
def Memory.store (m : Memory) (bs : Bytes) : Buffer → Memory
  | .hdr => { m with hdr := some bs }
  | .addr => { m with addr := bs }
  | .val => { m with val := bs }
  | .attr => { m with attr := some bs }
  | .out => { m with out := bs }

/-- The buffer becomes absent, where it has that value (R17). -/
def Memory.makeAbsent (m : Memory) : Buffer → Option Memory
  | .hdr => some { m with hdr := none }
  | .attr => some { m with attr := none }
  | .addr => none
  | .val => none
  | .out => none

/-- The byte at one offset of one buffer; none where the buffer has no such byte (R16, R30). -/
def Memory.byte? (m : Memory) (b : Buffer) (off : Nat) : Option Byte :=
  (m.fetch b).bind fun bs => bs[off]?

/-- `OUT_LEN`: the length of OUT as a word, a view and not a register of its own (R19). -/
def outLen (s : State) : Word := BitVec.ofNat 32 s.mem.out.length

/-! ### How a command ends -/

/-- What a command that succeeds leaves: its output bytes and its port result (R125 `succeed(out, rp)`). -/
structure Result where
  out  : Bytes
  port : Half
deriving DecidableEq, Repr

/-- Writes all of the result state: STATUS, OUT (and so OUT_LEN) and RPORT; no operand (R21, R22). -/
def writeResults (err : BitVec 3) (out : Bytes) (port : Half) (s : State) : State :=
  { s with status := statusWord err, rport := port.setWidth 32, mem := s.mem.store out .out }

/-- `raise E` (R125): ERR is the kind's code, DONE is set, OUT is empty, RPORT is 0; nothing is saved and no control goes
anywhere. -/
def raiseError (e : ErrorKind) (s : State) : State := writeResults e.code [] 0 s

/-- `succeed(out, rp)` (R125): ERR is 0, DONE is set, OUT and RPORT hold the result. -/
def succeed (out : Bytes) (port : Half) (s : State) : State := writeResults okCode out port s

/-- A command ends as its calculation does: by `succeed`, by `raise` (R125), or on the model's own guard. -/
def finish (c : Calc Result) (s : State) : Host.Outcome State Fault Refusal :=
  match c with
  | .ok r => .next (succeed r.out r.port s)
  | .error (.error e) => .next (raiseError e s)
  | .error (.fault f) => .fault f

end Sys2Proof.Machine
end

