-- ==== Sys2Proof/Machine/Operands.lean ====
section
/-!
DEFINITION. The operand forms and the checks the commands share: the port operand (spec/41_mapped_address.md R90), the family
selector and the value layout (R80, R81), `Validate` (R83) and `TagLenCheck` (R86), `CheckHeader` and the key
(spec/42_xor_mapped_address.md R100, R101).
-/

namespace Sys2Proof.Machine

/-- `PORT[15:0]`: the only part of PORT that reaches a result; the rest, the sign included, is dropped in silence (R90). -/
def portLow16 (port : Word) : Half := port.extractLsb' 0 16

/-- The two address families (R80). -/
inductive Family where
  | ipv4 | ipv6
deriving DecidableEq, Repr

/-- The family tag: 0x01 for IPv4, 0x02 for IPv6 (R80). -/
def Family.tag : Family → Byte
  | .ipv4 => 0x01
  | .ipv6 => 0x02

/-- `AddrLen`: bytes of an address of the family (R80). -/
def Family.addrLen : Family → Nat
  | .ipv4 => 4
  | .ipv6 => 16

/-- `Family(n)`: the selector looks at the length only (R80). -/
def familyOfLength (n : Nat) : Option Family :=
  if n = 4 then some .ipv4 else if n = 16 then some .ipv6 else none

/-- The family of a tag on the wire, if the tag is one (R80). -/
def familyOfTag (tag : Byte) : Option Family :=
  if tag = 0x01 then some .ipv4 else if tag = 0x02 then some .ipv6 else none

/-- The family of the address operand, else UnsupportedAddressFamily (R82, R122). -/
def addressFamily (addr : Bytes) : Calc Family :=
  match familyOfLength addr.length with
  | some f => .ok f
  | none => raised .unsupportedAddressFamily

/-- The MAPPED-ADDRESS value layout: reserved byte 0x00, family tag, 2 port bytes, address field (R81). -/
def valueLayout (f : Family) (portField addrField : Bytes) : Bytes :=
  [0x00#8, f.tag] ++ portField ++ addrField

/-- `Validate(ATTR)` (R83): answers the attribute's bytes when it passes. -/
def validate (attr : Option Bytes) : Calc Bytes :=
  match attr with
  | none => raised .invalidInput
  | some a =>
    if a.length = 0 then raised .malformedAttribute
    else if a.length % 4 ≠ 0 then raised .malformedAttribute
    else do
      let reserved ← byteAt a 0
      if reserved ≠ 0x00 then raised .malformedAttribute else pure a

/-- `TagLenCheck(ATTR)` (R86): the tag is a family's and the total length is the one that family has. -/
def tagLenCheck (a : Bytes) : Calc Family := do
  let tag ← byteAt a 1
  match familyOfTag tag with
  | some f => if a.length = 4 + f.addrLen then pure f else raised .malformedAttribute
  | none => raised .malformedAttribute

/-- `CheckHeader(HDR)` (R100): answers the header's bytes when it passes. -/
def checkHeader (hdr : Option Bytes) : Calc Bytes :=
  match hdr with
  | none => raised .invalidInput
  | some h =>
    if h.length ≠ 20 then raised .invalidInput
    else do
      let b0 ← byteAt h 0
      if b0 &&& 0xC0 ≠ 0x00 then raised .invalidInput else pure h

/-- The first n key bytes: header bytes [4 : 4+n], never extended, rotated or repeated (R101). -/
def keyBytes (h : Bytes) (n : Nat) : Calc Bytes := memRead h 4 n

end Sys2Proof.Machine
end

