-- ==== Sys2Proof/Machine/MappedAddress.lean ====
section
/-!
DEFINITION. The Mapped-Address codec: MA.ENC, MA.VAL, MA.PORT, MA.ADDR (spec/41_mapped_address.md R82 to R87). Each calculation
takes exactly the operands that R53 lists for its command.
-/

namespace Sys2Proof.Machine

/-- The calculation of MA.ENC, from ADDR and PORT (R82). -/
def maEncCalc (addr : Bytes) (port : Word) : Calc Result := do
  let family ← addressFamily addr
  let address ← memRead addr 0 addr.length
  pure { out := valueLayout family (bytesBe16 (portLow16 port)) address, port := 0 }

/-- The calculation of MA.VAL, from ATTR (R84). -/
def maValCalc (attr : Option Bytes) : Calc Result := do
  let _ ← validate attr
  pure { out := [], port := 0 }

/-- The calculation of MA.PORT, from ATTR: the tag and the exact length are not checked (R85). -/
def maPortCalc (attr : Option Bytes) : Calc Result := do
  let a ← validate attr
  let p ← readBe16 a 2
  pure { out := [], port := p }

/-- The calculation of MA.ADDR, from ATTR (R87). -/
def maAddrCalc (attr : Option Bytes) : Calc Result := do
  let a ← validate attr
  let _ ← tagLenCheck a
  let address ← memRead a 4 (a.length - 4)
  pure { out := address, port := 0 }

/-- `MA.ENC` (R82). -/
def execMaEnc (s : State) : Host.Outcome State Fault Refusal :=
  finish (maEncCalc s.mem.addr s.port) s

/-- `MA.VAL` (R84). -/
def execMaVal (s : State) : Host.Outcome State Fault Refusal :=
  finish (maValCalc s.mem.attr) s

/-- `MA.PORT` (R85). -/
def execMaPort (s : State) : Host.Outcome State Fault Refusal :=
  finish (maPortCalc s.mem.attr) s

/-- `MA.ADDR` (R87). -/
def execMaAddr (s : State) : Host.Outcome State Fault Refusal :=
  finish (maAddrCalc s.mem.attr) s

end Sys2Proof.Machine
end

