-- ==== Sys2Proof/Machine/Tlv.lean ====
section
/-!
DEFINITION. The TLV encoder's one command (spec/40_tlv_encoder.md R70 to R72).
-/

namespace Sys2Proof.Machine

/-- The framed attribute: type, original length, value, zero padding to a multiple of 4 (R70, R72). -/
def tlvFrame (type : Half) (val : Bytes) : Calc Bytes := do
  let len ← lengthField val.length
  let value ← memRead val 0 val.length
  pure (bytesBe16 type ++ bytesBe16 len ++ value ++ zeros (roundUp4 val.length - val.length))

/-- The calculation of TLV.ENC, from IMM16 and VAL alone (R53, R70). -/
def tlvEncCalc (type : Half) (val : Bytes) : Calc Result := do
  let out ← tlvFrame type val
  pure { out := out, port := 0 }

/-- `TLV.ENC type` (R70). -/
def execTlvEnc (type : Half) (s : State) : Host.Outcome State Fault Refusal :=
  finish (tlvEncCalc type s.mem.val) s

end Sys2Proof.Machine
end

