-- ==== Sys2Proof/Machine/XorMappedAddress.lean ====
section
/-!
DEFINITION. The XOR-Mapped-Address codec: XMA.CHK, XMA.ENC, XMA.PORT, XMA.ADDR (spec/42_xor_mapped_address.md R102 to R105). Each
calculation takes exactly the operands that R53 lists for its command; CheckHeader comes first in all four (R126).
-/

namespace Sys2Proof.Machine

/-- The calculation of XMA.CHK, from HDR (R102). -/
def xmaChkCalc (hdr : Option Bytes) : Calc Result := do
  let _ ← checkHeader hdr
  pure { out := [], port := 0 }

/-- The calculation of XMA.ENC, from HDR, ADDR and PORT: port bytes and address bytes are XORed with the key from key byte 0 on,
the reserved byte and the tag are not (R101, R103). -/
def xmaEncCalc (hdr : Option Bytes) (addr : Bytes) (port : Word) : Calc Result := do
  let h ← checkHeader hdr
  let family ← addressFamily addr
  let portKey ← keyBytes h 2
  let addrKey ← keyBytes h addr.length
  let address ← memRead addr 0 addr.length
  pure { out := valueLayout family (xorLanes (bytesBe16 (portLow16 port)) portKey) (xorLanes address addrKey), port := 0 }

/-- The calculation of XMA.PORT, from HDR and ATTR (R104). -/
def xmaPortCalc (hdr : Option Bytes) (attr : Option Bytes) : Calc Result := do
  let h ← checkHeader hdr
  let a ← validate attr
  let hi ← byteAt a 2
  let lo ← byteAt a 3
  let khi ← byteAt h 4
  let klo ← byteAt h 5
  pure { out := [], port := be16 (hi ^^^ khi) (lo ^^^ klo) }

/-- The calculation of XMA.ADDR, from HDR and ATTR (R105). -/
def xmaAddrCalc (hdr : Option Bytes) (attr : Option Bytes) : Calc Result := do
  let h ← checkHeader hdr
  let a ← validate attr
  let _ ← tagLenCheck a
  let field ← memRead a 4 (a.length - 4)
  let key ← keyBytes h (a.length - 4)
  pure { out := xorLanes field key, port := 0 }

/-- `XMA.CHK` (R102). -/
def execXmaChk (s : State) : Host.Outcome State Fault Refusal :=
  finish (xmaChkCalc s.mem.hdr) s

/-- `XMA.ENC` (R103). -/
def execXmaEnc (s : State) : Host.Outcome State Fault Refusal :=
  finish (xmaEncCalc s.mem.hdr s.mem.addr s.port) s

/-- `XMA.PORT` (R104). -/
def execXmaPort (s : State) : Host.Outcome State Fault Refusal :=
  finish (xmaPortCalc s.mem.hdr s.mem.attr) s

/-- `XMA.ADDR` (R105). -/
def execXmaAddr (s : State) : Host.Outcome State Fault Refusal :=
  finish (xmaAddrCalc s.mem.hdr s.mem.attr) s

end Sys2Proof.Machine
end

