-- ==== Sys2Proof/Machine/Dispatch.lean ====
section
/-!
DEFINITION. The nine commands and their meanings, one arm per constructor (spec/30_encoding.md R54).
-/

namespace Sys2Proof.Machine

/-- The meaning of each command. -/
def exec (i : Instr) (s : State) : Host.Outcome State Fault Refusal :=
  match i with
  | .tlvEnc type => Sys2Proof.Machine.execTlvEnc type s
  | .maEnc => Sys2Proof.Machine.execMaEnc s
  | .maVal => Sys2Proof.Machine.execMaVal s
  | .maPort => Sys2Proof.Machine.execMaPort s
  | .maAddr => Sys2Proof.Machine.execMaAddr s
  | .xmaChk => Sys2Proof.Machine.execXmaChk s
  | .xmaEnc => Sys2Proof.Machine.execXmaEnc s
  | .xmaPort => Sys2Proof.Machine.execXmaPort s
  | .xmaAddr => Sys2Proof.Machine.execXmaAddr s

end Sys2Proof.Machine
end

