-- ==== Sys2Proof/Machine/HostPort.lean ====
section
/-!
DEFINITION. The host port: what each host action of spec/20_memory.md R38 does to the block, a write of CMD (spec/30_encoding.md
R50, R55) and the reset event (spec/70_reset_and_hazards.md R140).
-/

namespace Sys2Proof.Machine

/-- A write of `w` to CMD (R18, R50): the command it encodes executes; a word that encodes none raises IllegalCommand (R55). -/
def hostCmd (w : Word) (s : State) : Host.Outcome State Fault Refusal :=
  match decode w with
  | .ok i => exec i s
  | .error _ => .next (raiseError .illegalCommand s)

/-- `HostLoad(B, s)`: all or nothing; refused above capacity (R38). -/
def hostLoad (b : Buffer) (bytes : Bytes) (s : State) : Host.Outcome State Fault Refusal :=
  if b.hostLoads = false then .refused .noSuchAction
  else if bytes.length ≤ b.capacity then .next { s with mem := s.mem.store bytes b }
  else .refused .overCapacity

/-- `HostAbsent(B)` (R38). -/
def hostAbsent (b : Buffer) (s : State) : Host.Outcome State Fault Refusal :=
  match s.mem.makeAbsent b with
  | some m => .next { s with mem := m }
  | none => .refused .noSuchAction

/-- `HostSetPort(v)`: PORT holds v in two's complement (R13, R38). -/
def hostSetPort (v : Int) (s : State) : Host.Outcome State Fault Refusal :=
  if portInRange v then .next { s with port := BitVec.ofInt 32 v } else .refused .portOutOfRange

/-- A buffer as a host read returns it: absent, or its whole byte sequence (R38). -/
def bufferAnswer : Option Bytes → Answer
  | some bs => .bytes bs
  | none => .absent

/-- The value of an item as a host read returns it; CMD cannot be read (R11, R18). -/
def readItem (x : Item) (s : State) : Option Answer :=
  match x with
  | .cmd => none
  | .status => some (.word s.status)
  | .port => some (.word s.port)
  | .rport => some (.word s.rport)
  | .outLen => some (.word (outLen s))
  | .buffer b => some (bufferAnswer (s.mem.fetch b))

/-- `HostRead(X)`: returns the value to the host and changes nothing of the block (R35, R38). -/
def hostRead (x : Item) (s : State) : Host.Outcome State Fault Refusal :=
  match readItem x s with
  | some a => .next { s with answers := s.answers ++ [a] }
  | none => .refused .noSuchAction

/-- `HostCopy(B, OUT)`: shorthand for loading B with what a read of OUT returns, B one of VAL and ATTR (R38). -/
def hostCopy (b : Buffer) (s : State) : Host.Outcome State Fault Refusal :=
  if b.copiesFromOut then hostLoad b s.mem.out s else .refused .noSuchAction

/-- One host action (R38). -/
def perform (a : HostAction) (s : State) : Host.Outcome State Fault Refusal :=
  match a with
  | .load b bytes => hostLoad b bytes s
  | .absent b => hostAbsent b s
  | .setPort v => hostSetPort v s
  | .cmd w => hostCmd w s
  | .read x => hostRead x s
  | .copy b => hostCopy b s

/-- Reset: every item of the block takes its reset value and nothing of the earlier state is left (R140); the host's own agenda
and answers are not the block's and stay. -/
def resetBlock (s : State) : State :=
  { State.reset with agenda := s.agenda, answers := s.answers }

/-- One event at the host port: a host action or a reset. -/
def performEvent (e : Event) (s : State) : Host.Outcome State Fault Refusal :=
  match e with
  | .action a => perform a s
  | .reset => .next (resetBlock s)

/-- One step of the model: the next event of the host's agenda takes effect, in the order the host issues them (R20, R39). With
nothing on the agenda the block idles: nothing happens in it except at a host action (R128). -/
def nextEvent (s : State) : Host.Outcome State Fault Refusal :=
  match s.agenda with
  | [] => .next s
  | e :: rest => performEvent e { s with agenda := rest }

/-- The host is about to write `w` to CMD. -/
def withCommand (s : State) (w : Word) : State :=
  { s with agenda := .action (.cmd w) :: s.agenda }

end Sys2Proof.Machine
end

