-- ==== Sys2Proof/Machine/Step.lean ====
section
/-!
DEFINITION. The step of the machine (spec/20_memory.md R38, R39): one host action or reset, atomic and complete when the step is
over (spec/70_reset_and_hazards.md R143).
-/

namespace Sys2Proof.Machine

/-- One step. -/
def step (s : State) : Host.Outcome State Fault Refusal := nextEvent s

/-- The state in which the next step writes to CMD the word that the opcode table numbers as `w`. The block fetches nothing
(R41): a command word comes from the host in the CMD write itself. -/
def State.withFetchWord (s : State) (nbits w : Nat) : State := withCommand s (tableWord nbits w)

end Sys2Proof.Machine
end

