-- ==== Sys2Proof/Safety.lean ====
section
/-!
DEFINITION. What the statements count as a good state: the capacities of spec/00_scope.md R5, and what spec/10_state.md R14, R15,
R19 and spec/60_exceptions.md R125, R127 say always holds of the result state.
-/

namespace Sys2Proof.Machine

/-- The result state as reset leaves it (R24). -/
def State.ResultsReset (s : State) : Prop :=
  s.status = 0 ∧ s.rport = 0 ∧ s.mem.out = []

/-- The result state as a command that succeeds leaves it: STATUS 0x100, RPORT within 16 bits, OUT a whole number of 4-byte
groups, and not both a port and bytes (R14, R19, R53, R125). -/
def State.ResultsOk (s : State) : Prop :=
  s.status = 0x00000100#32 ∧ s.rport.toNat < 65536 ∧ s.mem.out.length % 4 = 0 ∧ (s.rport = 0 ∨ s.mem.out = [])

/-- The result state as a command that fails leaves it: a code from 1 to 4, no bytes, no port (R120, R125, R127). -/
def State.ResultsFailed (s : State) : Prop :=
  (∃ code : Nat, 1 ≤ code ∧ code ≤ 4 ∧ s.status = BitVec.ofNat 32 (0x100 + code)) ∧ s.rport = 0 ∧ s.mem.out = []

/-- The invariant of the machine: every buffer within its capacity, and the result state one that reset or a command leaves. -/
def State.Inv (s : State) : Prop :=
  s.mem.wf = true ∧ (s.ResultsReset ∨ s.ResultsOk ∨ s.ResultsFailed)

end Sys2Proof.Machine
end

