-- ==== Sys2Proof/WellFormed.lean ====
section
/-!
DEFINITION. Well-formedness of what is written to the block: of a command as syntax, and of a host action (the preconditions of
spec/20_memory.md R38 that do not depend on the state).
-/

namespace Sys2Proof

/-- Every command is well-formed: the one operand field, IMM16, is 16 bits by its type and every value of it is legal (R52);
no other command has an operand field (R51). -/
def Instr.wf : Instr → Bool
  | .tlvEnc _ => true
  | .maEnc => true
  | .maVal => true
  | .maPort => true
  | .maAddr => true
  | .xmaChk => true
  | .xmaEnc => true
  | .xmaPort => true
  | .xmaAddr => true

/-- The preconditions of R38 on the action alone: the buffer is one the action names, the bytes fit, the port is a 32-bit
signed integer, the item can be read. `HostCopy` has one more, on the length of OUT, which depends on the state. -/
def Machine.HostAction.wf : Machine.HostAction → Bool
  | .load b bytes => b.hostLoads && decide (bytes.length ≤ b.capacity)
  | .absent b => b.canBeAbsent
  | .setPort v => Machine.portInRange v
  | .cmd _ => true
  | .read x => x.hostReads
  | .copy b => b.copiesFromOut

end Sys2Proof
end

