-- ==== Sys2Proof/Certificates/Slice0/Obligations.lean ====
section
/-!
DEFINITION. The statements for the provers. Expected bytes, codes and conditions are written here from the rules of spec/ in
numbers and list positions, and not through the model's own checks and byte operations, wherever a rule gives them.
-/

namespace Sys2Proof.Claims

open Sys2Proof.Machine

/-- `bytes_be16` in numbers: the byte at the lower offset is v div 256, the other v mod 256 (R7, R32). -/
def bigEndian2 (v : Nat) : Bytes := [BitVec.ofNat 8 (v / 256), BitVec.ofNat 8 (v % 256)]

/-- The state after success (R125): STATUS 0x100, OUT and RPORT as given, every other item as before (R21). -/
def succeeded (s : State) (out : Bytes) (port : Nat) : State :=
  { s with status := 0x00000100#32, rport := BitVec.ofNat 32 port, mem := { s.mem with out := out } }

/-- The state after a failure (R125): STATUS 0x100 + code, OUT empty, RPORT 0, every other item as before (R21). -/
def failed (s : State) (code : Nat) : State :=
  { s with status := BitVec.ofNat 32 (0x100 + code), rport := 0#32, mem := { s.mem with out := [] } }

/-- HDR passes the header check (R100): present, exactly 20 bytes, bits 7 and 6 of byte 0 both zero. -/
def GoodHeader (hdr : Option Bytes) : Prop :=
  ∃ h b0, hdr = some h ∧ h.length = 20 ∧ h[0]? = some b0 ∧ b0.getLsbD 7 = false ∧ b0.getLsbD 6 = false

/-- Attribute bytes that pass Validate (R83). -/
def ValidBytes (a : Bytes) : Prop := a.length ≠ 0 ∧ a.length % 4 = 0 ∧ a[0]? = some 0x00#8

/-- Attribute bytes that pass the tag and length check (R86). -/
def TagFitsLength (a : Bytes) : Prop :=
  (a[1]? = some 0x01#8 ∧ a.length = 8) ∨ (a[1]? = some 0x02#8 ∧ a.length = 20)

/-- Byte i of a sequence as a number (used only inside the length). -/
def byteNat (a : Bytes) (i : Nat) : Nat := (a.getD i 0).toNat

/-- The XOR commands (R126 (2)). -/
def IsXor : Instr → Prop
  | .xmaChk | .xmaEnc | .xmaPort | .xmaAddr => True
  | .tlvEnc _ | .maEnc | .maVal | .maPort | .maAddr => False

/-- Two states agree on the operands that R53 lists for a command. -/
def AgreeOnOperands : Instr → State → State → Prop
  | .tlvEnc _, s, s' => s.mem.val = s'.mem.val
  | .maEnc, s, s' => s.mem.addr = s'.mem.addr ∧ s.port = s'.port
  | .maVal, s, s' => s.mem.attr = s'.mem.attr
  | .maPort, s, s' => s.mem.attr = s'.mem.attr
  | .maAddr, s, s' => s.mem.attr = s'.mem.attr
  | .xmaChk, s, s' => s.mem.hdr = s'.mem.hdr
  | .xmaEnc, s, s' => s.mem.hdr = s'.mem.hdr ∧ s.mem.addr = s'.mem.addr ∧ s.port = s'.port
  | .xmaPort, s, s' => s.mem.hdr = s'.mem.hdr ∧ s.mem.attr = s'.mem.attr
  | .xmaAddr, s, s' => s.mem.hdr = s'.mem.hdr ∧ s.mem.attr = s'.mem.attr

/-- Two states have the same result state: STATUS, RPORT and OUT (R22). -/
def SameResults (t t' : State) : Prop := t.status = t'.status ∧ t.rport = t'.rport ∧ t.mem.out = t'.mem.out

/-- Two states have the same operand state: PORT, HDR, ADDR, VAL and ATTR (R21). -/
def SameOperands (s s' : State) : Prop :=
  s.port = s'.port ∧ s.mem.hdr = s'.mem.hdr ∧ s.mem.addr = s'.mem.addr ∧ s.mem.val = s'.mem.val ∧ s.mem.attr = s'.mem.attr

/-- Everything but STATUS, RPORT and OUT is as before: PORT, the four operand buffers as values and byte by byte (R21), and the
host's agenda and answers. -/
def OutsideResultsUnchanged (s t : State) : Prop :=
  SameOperands t s ∧ t.agenda = s.agenda ∧ t.answers = s.answers ∧
    ∀ (b : Buffer) (off : Nat), b ≠ .out → t.mem.byte? b off = s.mem.byte? b off

/-- The outcomes of R120's "raised by" column, as codes, for each command. -/
def outcomesOf : Instr → List Nat
  | .tlvEnc _ => [0]
  | .maEnc => [0, 2]
  | .maVal => [0, 1, 3]
  | .maPort => [0, 1, 3]
  | .maAddr => [0, 1, 3]
  | .xmaChk => [0, 1]
  | .xmaEnc => [0, 1, 2]
  | .xmaPort => [0, 1, 3]
  | .xmaAddr => [0, 1, 3]

/-- A header of 20 bytes with another one that agrees with it on byte 0 and on bytes [4:20]. -/
def AgreeOffBytes1To3 (h h' : Bytes) : Prop :=
  h.length = 20 ∧ h'.length = 20 ∧ h[0]? = h'[0]? ∧ h.drop 4 = h'.drop 4

end Sys2Proof.Claims

open Sys2Proof Sys2Proof.Machine Sys2Proof.Claims

/-! ### Reset and the machine's invariant -/

/-- R24: the reset value of every item, and what the commands give straight after reset. -/
def Obligations.ResetLeavesTheStatedValues : Prop :=
  State.reset.status = 0#32 ∧ errField State.reset.status = 0 ∧ doneField State.reset.status = false ∧
  State.reset.port = 0#32 ∧ State.reset.rport = 0#32 ∧
  State.reset.mem.out = [] ∧ outLen State.reset = 0#32 ∧ State.reset.mem.hdr = none ∧ State.reset.mem.attr = none ∧
  State.reset.mem.addr = [] ∧ State.reset.mem.val = [] ∧ readItem .cmd State.reset = none ∧
  (∀ i, i = .maVal ∨ i = .maPort ∨ i = .maAddr ∨ IsXor i → exec i State.reset = .next (failed State.reset 1)) ∧
  exec .maEnc State.reset = .next (failed State.reset 2) ∧
  (∀ type : Half, exec (.tlvEnc type) State.reset =
    .next (succeeded State.reset (bigEndian2 type.toNat ++ [0x00#8, 0x00#8]) 0))

/-- R140: a reset puts every item of the block to its reset value, whatever it was. That the host's agenda and the answers it
already has stay is the model's own (log entries 2, 3 and 7). -/
def Obligations.ResetEventForgetsEverything : Prop :=
  ∀ (s : State) (rest : List Event), s.agenda = .reset :: rest →
    step s = .next { State.reset with agenda := rest, answers := s.answers }

/-- The invariant of Safety.lean holds at reset. -/
def Obligations.ResetMeetsInv : Prop := State.reset.Inv

/-- Every step keeps the invariant: capacities, and a result state that is as reset, a success or a failure leaves it. That every
reachable result state is one of these rests on R19's and R10's sentences marked derived. -/
def Obligations.StepKeepsInv : Prop :=
  ∀ s t : State, s.Inv → step s = .next t → t.Inv

/-- Every step keeps the canonical form of memory, in every state that has it. -/
def Obligations.StepKeepsMemoryForm : Prop :=
  ∀ s t : State, s.mem.wf = true → step s = .next t → t.mem.wf = true

/-- No access of a command or host action falls outside a buffer, so no step faults: R31's sentence marked derived. The two faults
are the model's own guards (log entry 4). -/
def Obligations.NoStepFaults : Prop :=
  ∀ (s : State) (f : Fault), s.mem.wf = true → step s ≠ .fault f

/-! ### Encoding -/

/-- R50 to R54: decoding the word of a command gives the command back, with every type. -/
def Obligations.DecodeEncodeRoundTrip : Prop :=
  ∀ i : Instr, i.wf = true → decode (encode i) = .ok i

/-- R56: a command has one word; the words that decode are exactly the words of the nine commands. -/
def Obligations.DecodedWordIsItsEncoding : Prop :=
  ∀ (w : Word) (i : Instr), decode w = .ok i → encode i = w

/-- R54: the word of each command, and no word selects two rows of the opcode map. -/
def Obligations.OpcodeMapIsUnambiguous : Prop :=
  (∀ type : Half, (encode (.tlvEnc type)).toNat = type.toNat * 65536 + 1) ∧
  encode .maEnc = 0x00000010#32 ∧ encode .maVal = 0x00000011#32 ∧ encode .maPort = 0x00000012#32 ∧
  encode .maAddr = 0x00000013#32 ∧ encode .xmaChk = 0x00000020#32 ∧ encode .xmaEnc = 0x00000021#32 ∧
  encode .xmaPort = 0x00000022#32 ∧ encode .xmaAddr = 0x00000023#32 ∧
  (∀ (w : Word) (r r' : OpcodeRow), r ∈ opcodeTable → r' ∈ opcodeTable → r.selects w = true → r'.selects w = true → r = r')

/-- R54: words written out from the opcode map decode to the commands they stand for. -/
def Obligations.WordsOfTheOpcodeMapDecode : Prop :=
  decode 0x80220001#32 = .ok (.tlvEnc 0x8022#16) ∧ decode 0xFFFF0001#32 = .ok (.tlvEnc 0xFFFF#16) ∧
  decode 0x00000010#32 = .ok .maEnc ∧ decode 0x00000013#32 = .ok .maAddr ∧
  decode 0x00000021#32 = .ok .xmaEnc ∧ decode 0x00000022#32 = .ok .xmaPort

/-- R55: which words are illegal commands, and what writing one does: code 4, no result, operands unchanged. -/
def Obligations.IllegalCommandsAreReported : Prop :=
  (∀ w : Word, (∃ e, decode w = .error e) ↔
    ((w.toNat % 256 ∉ [0x01, 0x10, 0x11, 0x12, 0x13, 0x20, 0x21, 0x22, 0x23]) ∨ w.toNat / 256 % 256 ≠ 0 ∨
      (w.toNat % 256 ≠ 0x01 ∧ w.toNat / 65536 ≠ 0))) ∧
  (∀ (w : Word) (e : IllegalWord) (s : State), decode w = .error e → perform (.cmd w) s = .next (failed s 4)) ∧
  (∀ w : Word, w ∈ [0x00000000#32, 0x00000002#32, 0x00000110#32, 0x00010010#32, 0xFFFFFFFF#32] →
    ∃ e, decode w = .error e)

/-- R58: the assembler's words; `TLV.ENC` takes a number 0..0xFFFF, the others stand bare. -/
def Obligations.AssemblerWords : Prop :=
  (∀ t : Nat, t ≤ 0xFFFF → assemble ⟨.tlvEnc, some t⟩ = some (BitVec.ofNat 32 (t * 65536 + 1))) ∧
  (∀ t : Nat, 0xFFFF < t → assemble ⟨.tlvEnc, some t⟩ = none) ∧ assemble ⟨.tlvEnc, none⟩ = none ∧
  (∀ (m : Mnemonic) (t : Nat), m ≠ .tlvEnc → assemble ⟨m, some t⟩ = none) ∧
  (∀ i : Instr, i.mnemonic ≠ .tlvEnc → assemble ⟨i.mnemonic, none⟩ = some (encode i))

/-! ### The step and the host port -/

/-- R50: when the next event is a CMD write of a word that decodes, the step is the command's meaning at the state whose agenda has
moved past that event; a word that names no command is reported as an illegal command there (R55). -/
def Obligations.StepRunsTheDecodedCommand : Prop :=
  ∀ (s : State) (w : Word) (rest : List Event), s.agenda = .action (.cmd w) :: rest →
    (∀ i : Instr, decode w = .ok i → step s = exec i { s with agenda := rest }) ∧
    (∀ e : IllegalWord, decode w = .error e → step s = .next (failed { s with agenda := rest } 4))

/-- R39: events take effect one at a time in the order of the agenda; a step consumes exactly the first and no meaning touches the
rest. That the block idles with nothing on the agenda is the model's reading of R128 (log entry 6). -/
def Obligations.StepConsumesTheFirstEvent : Prop :=
  (∀ s : State, s.agenda = [] → step s = .next s) ∧
  (∀ (s : State) (e : Event) (rest : List Event), s.agenda = e :: rest → step s = performEvent e { s with agenda := rest }) ∧
  (∀ (s t : State) (e : Event) (rest : List Event), s.agenda = e :: rest → step s = .next t → t.agenda = rest)

/-- R38 `HostLoad`: within capacity the buffer holds exactly the bytes and nothing else changes; above it the action has no step.
The capacities are those log entry 8 fixes. That a load of OUT, which R38 does not list, is refused by name is the model's
(log entry 5). -/
def Obligations.HostLoadFillsOneBuffer : Prop :=
  ∀ (b : Buffer) (bs : Bytes) (s : State),
    (b ≠ .out → bs.length ≤ b.capacity → ∃ t, perform (.load b bs) s = .next t ∧ t.mem.fetch b = some bs ∧
      (∀ c, c ≠ b → t.mem.fetch c = s.mem.fetch c) ∧ t.status = s.status ∧ t.port = s.port ∧ t.rport = s.rport ∧
      t.agenda = s.agenda ∧ t.answers = s.answers) ∧
    (b ≠ .out → b.capacity < bs.length → perform (.load b bs) s = .refused .overCapacity) ∧
    (b = .out → perform (.load b bs) s = .refused .noSuchAction)

/-- R38 `HostAbsent` and R17: HDR and ATTR become absent and nothing else changes. That the action is refused by name for the
buffers R38 does not list is the model's (log entry 5). -/
def Obligations.HostAbsentEmptiesOneBuffer : Prop :=
  ∀ (b : Buffer) (s : State),
    (b = .hdr ∨ b = .attr → ∃ t, perform (.absent b) s = .next t ∧ t.mem.fetch b = none ∧
      (∀ c, c ≠ b → t.mem.fetch c = s.mem.fetch c) ∧ t.status = s.status ∧ t.port = s.port ∧ t.rport = s.rport ∧
      t.agenda = s.agenda ∧ t.answers = s.answers) ∧
    (b = .addr ∨ b = .val ∨ b = .out → perform (.absent b) s = .refused .noSuchAction)

/-- R13, R38 `HostSetPort`: PORT then reads, as a two's complement integer of 32 bits (log entry 14), the value written; nothing
else changes. That a value outside the precondition of R38 is refused by name is the model's (log entry 5). -/
def Obligations.HostSetPortWritesTheInteger : Prop :=
  ∀ (v : Int) (s : State),
    (-2147483648 ≤ v → v ≤ 2147483647 →
      ∃ p : Word, p.toInt = v ∧ perform (.setPort v) s = .next { s with port := p }) ∧
    (v < -2147483648 ∨ 2147483647 < v → perform (.setPort v) s = .refused .portOutOfRange)

/-- R38 `HostRead`: each item but CMD answers its value, OUT_LEN the length of OUT (R19), and the block does not change. Where the
answer is kept is the model's own (log entry 3), and so are that reads of RPORT and OUT while DONE = 0 answer the value held (log
entry 10) and that a read of CMD, which R38 does not list, is refused by name (log entry 5). -/
def Obligations.HostReadChangesNothing : Prop :=
  ∀ s : State,
    perform (.read .status) s = .next { s with answers := s.answers ++ [.word s.status] } ∧
    perform (.read .port) s = .next { s with answers := s.answers ++ [.word s.port] } ∧
    perform (.read .rport) s = .next { s with answers := s.answers ++ [.word s.rport] } ∧
    perform (.read .outLen) s = .next { s with answers := s.answers ++ [.word (BitVec.ofNat 32 s.mem.out.length)] } ∧
    (∀ b bs, s.mem.fetch b = some bs →
      perform (.read (.buffer b)) s = .next { s with answers := s.answers ++ [.bytes bs] }) ∧
    (∀ b, s.mem.fetch b = none → perform (.read (.buffer b)) s = .next { s with answers := s.answers ++ [.absent] }) ∧
    perform (.read .cmd) s = .refused .noSuchAction

/-- R38 `HostCopy`: it is a load of what OUT holds, into VAL or ATTR. The thresholds 32 and 65535 are the capacities that log
entry 8 fixes, and that a copy to a buffer R38 does not list is refused by name is the model's (log entry 5). -/
def Obligations.HostCopyIsALoadOfOut : Prop :=
  ∀ s : State,
    perform (.copy .val) s = perform (.load .val s.mem.out) s ∧ perform (.copy .attr) s = perform (.load .attr s.mem.out) s ∧
    (s.mem.out.length ≤ 32 → perform (.copy .attr) s = .next { s with mem := { s.mem with attr := some s.mem.out } }) ∧
    (s.mem.out.length ≤ 65535 → perform (.copy .val) s = .next { s with mem := { s.mem with val := s.mem.out } }) ∧
    (32 < s.mem.out.length → perform (.copy .attr) s = .refused .overCapacity) ∧
    (65535 < s.mem.out.length → perform (.copy .val) s = .refused .overCapacity) ∧
    (∀ b, b = .hdr ∨ b = .addr ∨ b = .out → perform (.copy b) s = .refused .noSuchAction)

/-- R22, R142: host actions other than commands leave the result state as it was. -/
def Obligations.HostActionsLeaveResults : Prop :=
  ∀ (a : HostAction) (s t : State), (∀ w, a ≠ .cmd w) → perform a s = .next t → SameResults t s

/-! ### What every command does and does not touch -/

/-- Every command completes: TLV.ENC in every state whose VAL is within its capacity, the others in every state. It rests on R31's
sentence marked derived. -/
def Obligations.EveryCommandCompletes : Prop :=
  (∀ (type : Half) (s : State), s.mem.val.length ≤ 65535 → ∃ t, exec (.tlvEnc type) s = .next t) ∧
  (∀ (i : Instr) (s : State), i.mnemonic ≠ .tlvEnc → ∃ t, exec i s = .next t)

/-- R21, the frame of all nine commands and of an illegal command word, success or failure: operand state, to the byte, and the
host's side. What a command writes is STATUS, RPORT and OUT (R22), which the result statements give. -/
def Obligations.CommandsLeaveOperands : Prop :=
  (∀ (i : Instr) (s t : State), exec i s = .next t → OutsideResultsUnchanged s t) ∧
  (∀ (w : Word) (s t : State), perform (.cmd w) s = .next t → OutsideResultsUnchanged s t)

/-- The result state after a command word is a function of the word and the operand state alone: R10's sentence marked derived. -/
def Obligations.ResultsDependOnOperandsAlone : Prop :=
  ∀ (w : Word) (s s' t t' : State), SameOperands s s' →
    perform (.cmd w) s = .next t → perform (.cmd w) s' = .next t' → SameResults t t'

/-- R53: a command reads no operand state but what R53 lists for it. -/
def Obligations.CommandsReadListedOperandsOnly : Prop :=
  ∀ (i : Instr) (s s' t t' : State), AgreeOnOperands i s s' → exec i s = .next t → exec i s' = .next t' → SameResults t t'

/-- 90_conflicts.md C4 and R101: header bytes [1:4] are never read; two headers of 20 bytes that differ there only give the same
results. -/
def Obligations.HeaderBytes1To3AreNeverRead : Prop :=
  ∀ (i : Instr) (s t t' : State) (h h' : Bytes), s.mem.hdr = some h → AgreeOffBytes1To3 h h' →
    exec i s = .next t → exec i { s with mem := { s.mem with hdr := some h' } } = .next t' → SameResults t t'

/-- A command performed twice on the same operands gives the same state: R35's sentence marked derived. -/
def Obligations.CommandsAreIdempotent : Prop :=
  ∀ (i : Instr) (s t : State), exec i s = .next t → exec i t = .next t

/-- R15, R125: what STATUS reads after any command word: 0x100 + code, DONE set, reserved bits and codes 5 to 7 never. -/
def Obligations.StatusAfterAnyCommand : Prop :=
  ∀ (w : Word) (s t : State), perform (.cmd w) s = .next t →
    ∃ code : Nat, code ≤ 4 ∧ t.status.toNat = 0x100 + code ∧ (errField t.status).toNat = code ∧ doneField t.status = true

/-- R15: every command sets DONE and only reset clears it. -/
def Obligations.OnlyResetClearsDone : Prop :=
  (∀ (w : Word) (s t : State), perform (.cmd w) s = .next t → doneField t.status = true) ∧
  (∀ s t : State, (∀ rest, s.agenda ≠ .reset :: rest) → doneField s.status = true → step s = .next t →
    doneField t.status = true) ∧
  (∀ (s t : State) (rest : List Event), s.agenda = .reset :: rest → step s = .next t → doneField t.status = false)

/-- R120: each command ends in the outcomes the table gives it, each of them can occur, and a word that is none of the nine ends in
code 4. -/
def Obligations.OutcomesOfEachCommand : Prop :=
  (∀ (i : Instr) (s t : State), exec i s = .next t → (errField t.status).toNat ∈ outcomesOf i) ∧
  (∀ (i : Instr) (code : Nat), code ∈ outcomesOf i → ∃ s t, exec i s = .next t ∧ (errField t.status).toNat = code) ∧
  (∀ (w : Word) (e : IllegalWord) (s : State), decode w = .error e →
    ∃ t, perform (.cmd w) s = .next t ∧ (errField t.status).toNat = 4)

/-- R127: when a command fails no part of a result is written and no operand has changed. -/
def Obligations.FailedCommandLeavesNoResult : Prop :=
  ∀ (w : Word) (s t : State), perform (.cmd w) s = .next t → errField t.status ≠ 0 →
    t.mem.out = [] ∧ t.rport = 0#32 ∧ SameOperands t s

/-- R14: RPORT after a command is within 16 bits, and 0 after every failure and every command but the two port accessors. -/
def Obligations.RportIsThePortAccessorsResult : Prop :=
  ∀ (i : Instr) (s t : State), exec i s = .next t →
    t.rport.toNat ≤ 65535 ∧ (errField t.status ≠ 0 → t.rport = 0#32) ∧ (i ≠ .maPort → i ≠ .xmaPort → t.rport = 0#32)

/-- The lengths a command can leave in OUT_LEN: R19's sentence marked derived. -/
def Obligations.OutLengthsACommandLeaves : Prop :=
  ∀ (i : Instr) (s t : State), exec i s = .next t →
    (outLen t).toNat = t.mem.out.length ∧
    (i.mnemonic = .tlvEnc → t.mem.out.length % 4 = 0 ∧ 4 ≤ t.mem.out.length ∧ t.mem.out.length ≤ 65540) ∧
    (i = .maEnc ∨ i = .xmaEnc → t.mem.out.length ∈ [0, 8, 20]) ∧
    (i = .maAddr ∨ i = .xmaAddr → t.mem.out.length ∈ [0, 4, 16]) ∧
    (i = .maVal ∨ i = .maPort ∨ i = .xmaChk ∨ i = .xmaPort → t.mem.out.length = 0)

/-- R126: in the four XOR commands a bad header is InvalidInput whatever else is wrong; after a good one the address length, or
Validate and then the tag and length, decide; an absent ATTR is InvalidInput, never MalformedAttribute. -/
def Obligations.FirstErrorReachedIsReported : Prop :=
  (∀ (i : Instr) (s : State), IsXor i → ¬ GoodHeader s.mem.hdr → exec i s = .next (failed s 1)) ∧
  (∀ s : State, GoodHeader s.mem.hdr → s.mem.addr.length ≠ 4 → s.mem.addr.length ≠ 16 →
    exec .xmaEnc s = .next (failed s 2)) ∧
  (∀ (i : Instr) (s : State), i = .maVal ∨ i = .maPort ∨ i = .maAddr ∨ i = .xmaPort ∨ i = .xmaAddr → s.mem.attr = none →
    exec i s = .next (failed s 1)) ∧
  (∀ (i : Instr) (s : State) (a : Bytes), i = .maVal ∨ i = .maPort ∨ i = .maAddr → s.mem.attr = some a → ¬ ValidBytes a →
    exec i s = .next (failed s 3)) ∧
  (∀ (i : Instr) (s : State) (a : Bytes), i = .xmaPort ∨ i = .xmaAddr → GoodHeader s.mem.hdr → s.mem.attr = some a →
    ¬ ValidBytes a → exec i s = .next (failed s 3))

/-! ### The TLV encoder -/

/-- R70, R72: TLV.ENC frames VAL as type, original length, value, zero padding, and cannot fail. -/
def Obligations.TlvEncFramesVal : Prop :=
  ∀ (type : Half) (s : State), s.mem.val.length ≤ 65535 →
    exec (.tlvEnc type) s = .next (succeeded s
      (bigEndian2 type.toNat ++ bigEndian2 s.mem.val.length ++ s.mem.val ++
        List.replicate ((4 - s.mem.val.length % 4) % 4) 0x00#8) 0)

/-- The laws (a) to (g) of a framed attribute: R73, which the spec marks derived from R70. -/
def Obligations.FramedAttributeLaws : Prop :=
  ∀ (type : Half) (s : State), s.mem.val.length ≤ 65535 → ∃ t, exec (.tlvEnc type) s = .next t ∧
    t.mem.out.length = 4 + 4 * ((s.mem.val.length + 3) / 4) ∧ t.mem.out.length % 4 = 0 ∧ 4 ≤ t.mem.out.length ∧
    t.mem.out.length ≤ 65540 ∧
    byteNat t.mem.out 0 * 256 + byteNat t.mem.out 1 = type.toNat ∧
    byteNat t.mem.out 2 * 256 + byteNat t.mem.out 3 = s.mem.val.length ∧
    (t.mem.out.drop 4).take s.mem.val.length = s.mem.val ∧
    (∀ b, b ∈ t.mem.out.drop (4 + s.mem.val.length) → b = 0x00#8) ∧
    (∀ (type' : Half) (s' t' : State), s'.mem.val.length ≤ 65535 → exec (.tlvEnc type') s' = .next t' →
      t'.mem.out = t.mem.out → type' = type ∧ s'.mem.val = s.mem.val)

/-- roundUp4 is the least multiple of 4 not below n; the padding count is (4 - n mod 4) mod 4 (R71); nothing wraps (its sentence
marked derived). -/
def Obligations.RoundUp4IsTheLeastMultiple : Prop :=
  ∀ n : Nat, roundUp4 n % 4 = 0 ∧ n ≤ roundUp4 n ∧ (∀ m, m % 4 = 0 → n ≤ m → roundUp4 n ≤ m) ∧
    roundUp4 n - n = (4 - n % 4) % 4 ∧ (n ≤ 65535 → roundUp4 n ≤ 65536)

/-! ### The Mapped-Address codec -/

/-- R80: the selector and its inverse: 4 bytes and tag 0x01 are IPv4, 16 bytes and tag 0x02 IPv6, nothing else has a family. -/
def Obligations.FamilySelectorIsByLength : Prop :=
  familyOfLength 4 = some .ipv4 ∧ familyOfLength 16 = some .ipv6 ∧
  (∀ n, n ≠ 4 → n ≠ 16 → familyOfLength n = none) ∧
  Family.tag .ipv4 = 0x01#8 ∧ Family.tag .ipv6 = 0x02#8 ∧ Family.addrLen .ipv4 = 4 ∧ Family.addrLen .ipv6 = 16 ∧
  (∀ (tag : Byte) (f : Family), familyOfTag tag = some f ↔ tag = f.tag)

/-- R82: MA.ENC on a 4-byte, a 16-byte and any other address. -/
def Obligations.MaEncBuildsTheValue : Prop :=
  ∀ s : State,
    (s.mem.addr.length = 4 → exec .maEnc s = .next (succeeded s
      ([0x00#8, 0x01#8] ++ bigEndian2 (s.port.toNat % 65536) ++ s.mem.addr) 0)) ∧
    (s.mem.addr.length = 16 → exec .maEnc s = .next (succeeded s
      ([0x00#8, 0x02#8] ++ bigEndian2 (s.port.toNat % 65536) ++ s.mem.addr) 0)) ∧
    (s.mem.addr.length ≠ 4 → s.mem.addr.length ≠ 16 → exec .maEnc s = .next (failed s 2))

/-- R83, R84: MA.VAL reports what Validate finds. -/
def Obligations.MaValReportsValidate : Prop :=
  ∀ s : State,
    (s.mem.attr = none → exec .maVal s = .next (failed s 1)) ∧
    (∀ a, s.mem.attr = some a → ValidBytes a → exec .maVal s = .next (succeeded s [] 0)) ∧
    (∀ a, s.mem.attr = some a → ¬ ValidBytes a → exec .maVal s = .next (failed s 3))

/-- R85: MA.PORT reads bytes [2:4] of a valid attribute as an unsigned big-endian number, whatever its tag and length. -/
def Obligations.MaPortReadsThePort : Prop :=
  ∀ s : State,
    (s.mem.attr = none → exec .maPort s = .next (failed s 1)) ∧
    (∀ a, s.mem.attr = some a → ValidBytes a →
      exec .maPort s = .next (succeeded s [] (byteNat a 2 * 256 + byteNat a 3))) ∧
    (∀ a, s.mem.attr = some a → ¬ ValidBytes a → exec .maPort s = .next (failed s 3))

/-- R86, R87: MA.ADDR returns bytes [4:length] of an attribute that passes both checks. -/
def Obligations.MaAddrReturnsTheAddress : Prop :=
  ∀ s : State,
    (s.mem.attr = none → exec .maAddr s = .next (failed s 1)) ∧
    (∀ a, s.mem.attr = some a → ValidBytes a → TagFitsLength a → exec .maAddr s = .next (succeeded s (a.drop 4) 0)) ∧
    (∀ a, s.mem.attr = some a → ¬ (ValidBytes a ∧ TagFitsLength a) → exec .maAddr s = .next (failed s 3))

/-- R88, whose wording in commands the spec marks derived: what MA.ENC builds, loaded into ATTR, validates and gives the address and the low 16 bits of the port back. -/
def Obligations.PlainRoundTrip : Prop :=
  ∀ s : State, s.mem.addr.length = 4 ∨ s.mem.addr.length = 16 →
    ∃ t u, exec .maEnc s = .next t ∧ perform (.load .attr t.mem.out) t = .next u ∧
      exec .maVal u = .next (succeeded u [] 0) ∧
      exec .maPort u = .next (succeeded u [] (s.port.toNat % 65536)) ∧
      exec .maAddr u = .next (succeeded u s.mem.addr 0)

/-- R90, R13: for every integer the host can write to PORT, the port bytes MA.ENC writes are those of the integer modulo 65536, and
the command succeeds. For a negative integer this rests on two's complement, which R90 marks as the spec's reading D4 (log
entry 14). -/
def Obligations.PortIsTruncatedSilently : Prop :=
  ∀ (v : Int) (s : State), -2147483648 ≤ v → v ≤ 2147483647 → s.mem.addr.length = 4 ∨ s.mem.addr.length = 16 →
    ∃ u t, perform (.setPort v) s = .next u ∧ exec .maEnc u = .next t ∧ errField t.status = 0 ∧
      (t.mem.out.drop 2).take 2 = bigEndian2 (v % 65536).toNat

/-- A MAPPED-ADDRESS value is a multiple of 4 bytes, so framing it adds no padding: R82's corner case marked derived. -/
def Obligations.FramingAMappedAddressAddsNoPadding : Prop :=
  ∀ (type : Half) (s : State), s.mem.addr.length = 4 ∨ s.mem.addr.length = 16 →
    ∃ t u v, exec .maEnc s = .next t ∧ perform (.copy .val) t = .next u ∧ exec (.tlvEnc type) u = .next v ∧
      v.mem.out = bigEndian2 type.toNat ++ bigEndian2 t.mem.out.length ++ t.mem.out

/-! ### The XOR-Mapped-Address codec -/

/-- R100, R102: XMA.CHK reports what the header check finds. -/
def Obligations.XmaChkReportsTheHeader : Prop :=
  ∀ s : State,
    (GoodHeader s.mem.hdr → exec .xmaChk s = .next (succeeded s [] 0)) ∧
    (¬ GoodHeader s.mem.hdr → exec .xmaChk s = .next (failed s 1))

/-- R103: XMA.ENC, header check first; port bytes XOR header bytes 4 and 5, address byte i XOR header byte 4 + i. -/
def Obligations.XmaEncBuildsTheValue : Prop :=
  ∀ (s : State),
    (¬ GoodHeader s.mem.hdr → exec .xmaEnc s = .next (failed s 1)) ∧
    (GoodHeader s.mem.hdr → s.mem.addr.length ≠ 4 → s.mem.addr.length ≠ 16 → exec .xmaEnc s = .next (failed s 2)) ∧
    (∀ h, s.mem.hdr = some h → GoodHeader s.mem.hdr → s.mem.addr.length = 4 ∨ s.mem.addr.length = 16 →
      exec .xmaEnc s = .next (succeeded s
        ([0x00#8, if s.mem.addr.length = 4 then 0x01#8 else 0x02#8,
          BitVec.ofNat 8 (s.port.toNat % 65536 / 256) ^^^ h.getD 4 0, BitVec.ofNat 8 (s.port.toNat % 256) ^^^ h.getD 5 0] ++
          (List.range s.mem.addr.length).map fun i => s.mem.addr.getD i 0 ^^^ h.getD (4 + i) 0) 0))

/-- R104: XMA.PORT, header check first, then Validate; attribute bytes 2 and 3 XOR header bytes 4 and 5. -/
def Obligations.XmaPortRecoversThePort : Prop :=
  ∀ s : State,
    (¬ GoodHeader s.mem.hdr ∨ s.mem.attr = none → exec .xmaPort s = .next (failed s 1)) ∧
    (∀ a, GoodHeader s.mem.hdr → s.mem.attr = some a → ¬ ValidBytes a → exec .xmaPort s = .next (failed s 3)) ∧
    (∀ h a, s.mem.hdr = some h → GoodHeader s.mem.hdr → s.mem.attr = some a → ValidBytes a →
      exec .xmaPort s = .next (succeeded s []
        ((a.getD 2 0 ^^^ h.getD 4 0).toNat * 256 + (a.getD 3 0 ^^^ h.getD 5 0).toNat)))

/-- R105: XMA.ADDR, header check first, then both attribute checks; attribute byte j XOR header byte j for j from 4. -/
def Obligations.XmaAddrRecoversTheAddress : Prop :=
  ∀ s : State,
    (¬ GoodHeader s.mem.hdr ∨ s.mem.attr = none → exec .xmaAddr s = .next (failed s 1)) ∧
    (∀ a, GoodHeader s.mem.hdr → s.mem.attr = some a → ¬ (ValidBytes a ∧ TagFitsLength a) →
      exec .xmaAddr s = .next (failed s 3)) ∧
    (∀ h a, s.mem.hdr = some h → GoodHeader s.mem.hdr → s.mem.attr = some a → ValidBytes a → TagFitsLength a →
      exec .xmaAddr s = .next (succeeded s
        ((List.range (a.length - 4)).map fun i => a.getD (4 + i) 0 ^^^ h.getD (4 + i) 0) 0))

/-- R106, which the spec marks derived: the XOR round trip under one header, and the length of what XMA.ENC builds. -/
def Obligations.XorRoundTrip : Prop :=
  ∀ s : State, GoodHeader s.mem.hdr → s.mem.addr.length = 4 ∨ s.mem.addr.length = 16 →
    ∃ t u, exec .xmaEnc s = .next t ∧ t.mem.out.length = 4 + s.mem.addr.length ∧
      perform (.load .attr t.mem.out) t = .next u ∧
      exec .xmaPort u = .next (succeeded u [] (s.port.toNat % 65536)) ∧
      exec .xmaAddr u = .next (succeeded u s.mem.addr 0)

/-- R107, which the spec marks derived: the XOR codec is the plain codec with `00 00 HDR[4] HDR[5] HDR[4:...]` XORed over the value, both ways. -/
def Obligations.XorCodecIsPlainCodecUnderTheKey : Prop :=
  ∀ (s : State) (h : Bytes), s.mem.hdr = some h → GoodHeader s.mem.hdr →
    (s.mem.addr.length = 4 ∨ s.mem.addr.length = 16 → ∃ t u, exec .maEnc s = .next t ∧ exec .xmaEnc s = .next u ∧
      u.mem.out = List.zipWith (fun x k => x ^^^ k) t.mem.out
        ([0x00#8, 0x00#8, h.getD 4 0, h.getD 5 0] ++ (h.drop 4).take s.mem.addr.length)) ∧
    (∀ a, s.mem.attr = some a → a.length = 8 ∨ a.length = 20 → ∀ i j, (i = .xmaPort ∧ j = .maPort) ∨ (i = .xmaAddr ∧ j = .maAddr) →
      ∃ t u, exec i s = .next t ∧
        exec j { s with mem := { s.mem with attr := some (List.zipWith (fun x k => x ^^^ k) a
          ([0x00#8, 0x00#8, h.getD 4 0, h.getD 5 0] ++ (h.drop 4).take (a.length - 4))) } } = .next u ∧
        SameResults t u)

/-- R108: each lane of XMA.ENC's address field depends on its own address byte and key byte only: two runs that agree on lane i
give the same byte there. -/
def Obligations.XorLanesAreIndependent : Prop :=
  ∀ (s s' t t' : State) (h h' : Bytes) (i : Nat), s.mem.hdr = some h → s'.mem.hdr = some h' →
    s.mem.addr.length = s'.mem.addr.length → i < s.mem.addr.length → s.mem.addr[i]? = s'.mem.addr[i]? → h[4 + i]? = h'[4 + i]? →
    exec .xmaEnc s = .next t → exec .xmaEnc s' = .next t' → errField t.status = 0 → errField t'.status = 0 →
    t.mem.out[4 + i]? = t'.mem.out[4 + i]?

/-! ### Buffers -/

/-- R31: a write inside a buffer sets those bytes and no other, and a read of them answers them. Outside the length R31 defines
neither; that both stop on `outsideBuffer` there is the model's (log entry 4). No step calls `memWrite`: a command's one write is
OUT as a whole. -/
def Obligations.MemWriteSetsThoseBytesOnly : Prop :=
  (∀ (b v : Bytes) (off : Nat), off + v.length ≤ b.length →
    ∃ w, memWrite b off v = .ok w ∧ w.length = b.length ∧ memRead w off v.length = .ok v ∧
      ∀ i, i < off ∨ off + v.length ≤ i → w[i]? = b[i]?) ∧
  (∀ (b v : Bytes) (off : Nat), b.length < off + v.length →
    memWrite b off v = undefinedUse .outsideBuffer ∧ memRead b off v.length = undefinedUse .outsideBuffer)
end

