-- ==== Sys2Proof/Laws/State.lean ====
section
/-!
SUPPORT. What each update of the state leaves in each field: one lemma per field per update, all by rfl.
-/

namespace Sys2Proof.Machine

variable (s : State) (err : BitVec 3) (out : Bytes) (port : Half) (e : ErrorKind)

@[simp] theorem writeResults_status : (writeResults err out port s).status = statusWord err := rfl
@[simp] theorem writeResults_port : (writeResults err out port s).port = s.port := rfl
@[simp] theorem writeResults_rport : (writeResults err out port s).rport = port.setWidth 32 := rfl
@[simp] theorem writeResults_hdr : (writeResults err out port s).mem.hdr = s.mem.hdr := rfl
@[simp] theorem writeResults_addr : (writeResults err out port s).mem.addr = s.mem.addr := rfl
@[simp] theorem writeResults_val : (writeResults err out port s).mem.val = s.mem.val := rfl
@[simp] theorem writeResults_attr : (writeResults err out port s).mem.attr = s.mem.attr := rfl
@[simp] theorem writeResults_out : (writeResults err out port s).mem.out = out := rfl
@[simp] theorem writeResults_agenda : (writeResults err out port s).agenda = s.agenda := rfl
@[simp] theorem writeResults_answers : (writeResults err out port s).answers = s.answers := rfl

@[simp] theorem succeed_status : (succeed out port s).status = 0x00000100#32 := rfl
@[simp] theorem succeed_port : (succeed out port s).port = s.port := rfl
@[simp] theorem succeed_rport : (succeed out port s).rport = port.setWidth 32 := rfl
@[simp] theorem succeed_hdr : (succeed out port s).mem.hdr = s.mem.hdr := rfl
@[simp] theorem succeed_addr : (succeed out port s).mem.addr = s.mem.addr := rfl
@[simp] theorem succeed_val : (succeed out port s).mem.val = s.mem.val := rfl
@[simp] theorem succeed_attr : (succeed out port s).mem.attr = s.mem.attr := rfl
@[simp] theorem succeed_out : (succeed out port s).mem.out = out := rfl
@[simp] theorem succeed_agenda : (succeed out port s).agenda = s.agenda := rfl
@[simp] theorem succeed_answers : (succeed out port s).answers = s.answers := rfl

@[simp] theorem raiseError_status : (raiseError e s).status = statusWord e.code := rfl
@[simp] theorem raiseError_port : (raiseError e s).port = s.port := rfl
@[simp] theorem raiseError_rport : (raiseError e s).rport = 0 := rfl
@[simp] theorem raiseError_hdr : (raiseError e s).mem.hdr = s.mem.hdr := rfl
@[simp] theorem raiseError_addr : (raiseError e s).mem.addr = s.mem.addr := rfl
@[simp] theorem raiseError_val : (raiseError e s).mem.val = s.mem.val := rfl
@[simp] theorem raiseError_attr : (raiseError e s).mem.attr = s.mem.attr := rfl
@[simp] theorem raiseError_out : (raiseError e s).mem.out = [] := rfl
@[simp] theorem raiseError_agenda : (raiseError e s).agenda = s.agenda := rfl
@[simp] theorem raiseError_answers : (raiseError e s).answers = s.answers := rfl

@[simp] theorem resetBlock_status : (resetBlock s).status = 0 := rfl
@[simp] theorem resetBlock_port : (resetBlock s).port = 0 := rfl
@[simp] theorem resetBlock_rport : (resetBlock s).rport = 0 := rfl
@[simp] theorem resetBlock_mem : (resetBlock s).mem = Memory.reset := rfl
@[simp] theorem resetBlock_agenda : (resetBlock s).agenda = s.agenda := rfl
@[simp] theorem resetBlock_answers : (resetBlock s).answers = s.answers := rfl

@[simp] theorem withCommand_status (w : Word) : (withCommand s w).status = s.status := rfl
@[simp] theorem withCommand_port (w : Word) : (withCommand s w).port = s.port := rfl
@[simp] theorem withCommand_rport (w : Word) : (withCommand s w).rport = s.rport := rfl
@[simp] theorem withCommand_mem (w : Word) : (withCommand s w).mem = s.mem := rfl
@[simp] theorem withCommand_agenda (w : Word) : (withCommand s w).agenda = .action (.cmd w) :: s.agenda := rfl
@[simp] theorem withCommand_answers (w : Word) : (withCommand s w).answers = s.answers := rfl

/-- A store fills its buffer with exactly the bytes. -/
@[simp] theorem fetch_store_same (m : Memory) (bs : Bytes) (b : Buffer) : (m.store bs b).fetch b = some bs := by
  cases b <;> rfl

/-- A store leaves every other buffer as it was. -/
theorem fetch_store_other (m : Memory) (bs : Bytes) {b c : Buffer} (h : c ≠ b) :
    (m.store bs b).fetch c = m.fetch c := by
  cases b <;> cases c <;> first | rfl | exact absurd rfl h

/-- Where a buffer can be made absent, it is absent after and every other buffer is as it was. -/
theorem makeAbsent_spec {m m' : Memory} {b : Buffer} (h : m.makeAbsent b = some m') :
    b.canBeAbsent = true ∧ m'.fetch b = none ∧ ∀ c, c ≠ b → m'.fetch c = m.fetch c := by
  cases b <;> simp only [Memory.makeAbsent, Option.some.injEq, reduceCtorEq] at h <;> subst h <;>
    refine ⟨rfl, rfl, fun c hc => ?_⟩ <;> cases c <;> first | rfl | exact absurd rfl hc

end Sys2Proof.Machine
end

