-- ==== Sys2Proof/Laws/Memory.lean ====
section
/-!
SUPPORT. The canonical form of memory (each buffer within its capacity): what it says of one buffer, that reset has it, and that
every memory operation keeps it.
-/

namespace Sys2Proof.Machine

/-- Memory is in its form exactly when what each buffer holds is within that buffer's capacity. -/
theorem Memory.wf_iff (m : Memory) :
    m.wf = true ↔ ∀ b : Buffer, ((m.fetch b).getD []).length ≤ b.capacity := by
  simp only [Memory.wf, Bool.and_eq_true, decide_eq_true_eq]
  constructor
  · rintro ⟨⟨⟨⟨h1, h2⟩, h3⟩, h4⟩, h5⟩ b
    cases b <;> assumption
  · intro h
    exact ⟨⟨⟨⟨h .hdr, h .addr⟩, h .val⟩, h .attr⟩, h .out⟩

theorem Memory.reset_wf : Memory.reset.wf = true := by decide

/-- A store within capacity keeps the form. -/
theorem Memory.store_wf {m : Memory} {bs : Bytes} {b : Buffer} (hm : m.wf = true) (h : bs.length ≤ b.capacity) :
    (m.store bs b).wf = true := by
  rw [Memory.wf_iff] at hm ⊢
  intro c
  by_cases hc : c = b
  · subst hc; simpa using h
  · rw [fetch_store_other m bs hc]; exact hm c

/-- Making a buffer absent keeps the form. -/
theorem Memory.makeAbsent_wf {m m' : Memory} {b : Buffer} (hm : m.wf = true) (h : m.makeAbsent b = some m') :
    m'.wf = true := by
  obtain ⟨-, hb, ho⟩ := makeAbsent_spec h
  rw [Memory.wf_iff] at hm ⊢
  intro c
  by_cases hc : c = b
  · subst hc; simp [hb]
  · rw [ho c hc]; exact hm c

end Sys2Proof.Machine
end

