-- ==== Sys2Proof/Laws/Ops.lean ====
section
/-!
SUPPORT. One lemma per shared operation, saying everything it can do; later proofs cite these and do not unfold the operation.
-/

namespace Sys2Proof.Machine

/-- A calculation that answers a value answered every part of it. -/
theorem calc_bind_ok {α β : Type} {c : Calc α} {f : α → Calc β} {y : β} :
    (c >>= f) = .ok y ↔ ∃ x, c = .ok x ∧ f x = .ok y := by
  cases c <;> simp [bind, Except.bind]

/-- Where a calculation stops, so does what follows it. -/
theorem calc_bind_error {α β : Type} {c : Calc α} {f : α → Calc β} {st : Stop} :
    (c >>= f) = .error st ↔ c = .error st ∨ ∃ x, c = .ok x ∧ f x = .error st := by
  cases c <;> simp [bind, Except.bind]

theorem roundUp4_mod (n : Nat) : roundUp4 n % 4 = 0 := by unfold roundUp4; omega

theorem le_roundUp4 (n : Nat) : n ≤ roundUp4 n := by unfold roundUp4; omega

theorem roundUp4_lt (n : Nat) : roundUp4 n < n + 4 := by unfold roundUp4; omega

@[simp] theorem zeros_length (n : Nat) : (zeros n).length = n := by simp [zeros]

@[simp] theorem bytesBe16_length (v : Half) : (bytesBe16 v).length = 2 := rfl

/-- The output capacity is the one R5 derives. -/
theorem outCap_derived : Config.outCap = max 20 (4 + roundUp4 Config.valCap) := by decide

/-- `be16` of the two bytes of a field gives the field back. -/
theorem be16_bytes (v : Half) : be16 (highByte v) (lowByte v) = v := by
  apply BitVec.eq_of_getLsbD_eq
  intro i hi
  simp only [be16, highByte, lowByte, BitVec.getLsbD_append, BitVec.getLsbD_extractLsb']
  by_cases h : i < 8
  · simp [h]
  · simp [h, show i - 8 < 8 by omega, show 8 + (i - 8) = i by omega]

/-- The high byte is the field divided by 256. -/
theorem highByte_eq (v : Half) : highByte v = BitVec.ofNat 8 (v.toNat / 256) := by
  apply BitVec.eq_of_toNat_eq
  simp [highByte, BitVec.extractLsb'_toNat, Nat.shiftRight_eq_div_pow]

/-- The low byte is the field modulo 256. -/
theorem lowByte_eq (v : Half) : lowByte v = BitVec.ofNat 8 (v.toNat % 256) := by
  apply BitVec.eq_of_toNat_eq
  simp [lowByte, BitVec.extractLsb'_toNat]

/-- `be16` as R7 writes it. -/
theorem be16_toNat (hi lo : Byte) : (be16 hi lo).toNat = hi.toNat * 256 + lo.toNat := by
  have h := lo.isLt
  rw [be16, BitVec.toNat_append, Nat.shiftLeft_eq, Nat.or_comm, Nat.or_comm]
  rw [show hi.toNat * 2 ^ 8 = 2 ^ 8 * hi.toNat by omega, ← Nat.two_pow_add_eq_or_of_lt (by simpa using h)]
  omega

/-- A memory read answers exactly inside the length, and then with those bytes. -/
theorem memRead_ok {b v : Bytes} {off n : Nat} :
    memRead b off n = .ok v ↔ off + n ≤ b.length ∧ v = (b.drop off).take n := by
  unfold memRead undefinedUse
  split <;> rename_i h <;> simp [h, eq_comm]

/-- Inside the length a memory read answers. -/
theorem memRead_inside {b : Bytes} {off n : Nat} (h : off + n ≤ b.length) :
    memRead b off n = .ok ((b.drop off).take n) := memRead_ok.mpr ⟨h, rfl⟩

/-- A memory write answers exactly inside the length, and then changes those bytes and no other. -/
theorem memWrite_ok {b v w : Bytes} {off : Nat} :
    memWrite b off v = .ok w ↔
      off + v.length ≤ b.length ∧ w = b.take off ++ v ++ b.drop (off + v.length) := by
  unfold memWrite undefinedUse
  split <;> rename_i h <;> simp [h, eq_comm]

/-- `OUT <- s` is a write of the whole of a buffer that has the length of s (R7). -/
theorem memWrite_whole (b v : Bytes) (h : b.length = v.length) : memWrite b 0 v = .ok v := by
  rw [memWrite_ok]
  refine ⟨by omega, ?_⟩
  rw [List.drop_eq_nil_of_le (by omega)]
  simp

/-- One byte answers exactly inside the length. -/
theorem byteAt_ok {b : Bytes} {i : Nat} {x : Byte} : byteAt b i = .ok x ↔ b[i]? = some x := by
  unfold byteAt undefinedUse
  split <;> rename_i h <;> simp [h]

theorem byteAt_inside {b : Bytes} {i : Nat} (h : i < b.length) : byteAt b i = .ok b[i] :=
  byteAt_ok.mpr (by simp [h])

/-- One byte is a memory read of one byte (R7). -/
theorem byteAt_memRead {b : Bytes} {i : Nat} {x : Byte} (h : byteAt b i = .ok x) : memRead b i 1 = .ok [x] := by
  rw [byteAt_ok] at h
  obtain ⟨hi, rfl⟩ := List.getElem?_eq_some_iff.mp h
  rw [memRead_ok]
  refine ⟨by omega, ?_⟩
  rw [List.drop_eq_getElem_cons hi]
  rfl

/-- A 2-byte field answers inside the length, high byte first (R32). -/
theorem readBe16_inside {b : Bytes} {off : Nat} (h : off + 1 < b.length) :
    readBe16 b off = .ok (be16 b[off] b[off + 1]) := by
  simp [readBe16, byteAt_inside (show off < b.length by omega), byteAt_inside h, bind, Except.bind, pure, Except.pure]

/-- The length field answers exactly up to 65535. -/
theorem lengthField_ok {n : Nat} {v : Half} : lengthField n = .ok v ↔ n ≤ 65535 ∧ v = BitVec.ofNat 16 n := by
  unfold lengthField undefinedUse
  split <;> rename_i h <;> simp [h, eq_comm]

@[simp] theorem xorLanes_length (xs ks : Bytes) : (xorLanes xs ks).length = min xs.length ks.length := by
  simp [xorLanes]

/-- The exclusive-or with the same key undoes itself (R106). -/
theorem xorLanes_twice {xs ks : Bytes} (h : xs.length ≤ ks.length) : xorLanes (xorLanes xs ks) ks = xs := by
  induction xs generalizing ks with
  | nil => simp [xorLanes]
  | cons x xs ih =>
    cases ks with
    | nil => simp at h
    | cons k ks =>
      have := ih (ks := ks) (by simpa using h)
      simp only [xorLanes, List.zipWith_cons_cons] at this ⊢
      rw [this, BitVec.xor_assoc, BitVec.xor_self, BitVec.xor_zero]

/-- The only ways a command ends: it succeeds, it raises, or a guard of the model stops it. -/
theorem finish_cases (c : Calc Result) (s : State) :
    (∃ r, c = .ok r ∧ finish c s = .next (succeed r.out r.port s)) ∨
    (∃ e, c = .error (.error e) ∧ finish c s = .next (raiseError e s)) ∨
    (∃ f, c = .error (.fault f) ∧ finish c s = .fault f) := by
  rcases c with (e | f) | r
  · exact .inr (.inl ⟨e, rfl, rfl⟩)
  · exact .inr (.inr ⟨f, rfl, rfl⟩)
  · exact .inl ⟨r, rfl, rfl⟩

/-- A command that answers a next state has succeeded or raised. -/
theorem finish_next {c : Calc Result} {s t : State} (h : finish c s = .next t) :
    (∃ r, c = .ok r ∧ t = succeed r.out r.port s) ∨ (∃ e, c = .error (.error e) ∧ t = raiseError e s) := by
  rcases finish_cases c s with ⟨r, hc, hf⟩ | ⟨e, hc, hf⟩ | ⟨f, hc, hf⟩
  · exact .inl ⟨r, hc, by simpa [hf, eq_comm] using h⟩
  · exact .inr ⟨e, hc, by simpa [hf, eq_comm] using h⟩
  · simp [hf] at h

end Sys2Proof.Machine
end

