-- ==== Sys2Proof/Laws/Operands.lean ====
section
/-!
SUPPORT. The shared checks: when each passes, what each raises when it does not, and that none meets a guard of the model. The
statements' proofs cite these lemmas.
-/

namespace Sys2Proof.Machine

/-- The selector: exactly the lengths 4 and 16 have a family (R80). -/
theorem familyOfLength_some {n : Nat} {f : Family} : familyOfLength n = some f ↔ n = f.addrLen := by
  unfold familyOfLength
  cases f <;> simp only [Family.addrLen] <;> split <;> (try split) <;> simp <;> omega

/-- An address of another length is UnsupportedAddressFamily (R122). -/
theorem addressFamily_other {a : Bytes} (h4 : a.length ≠ 4) (h16 : a.length ≠ 16) :
    addressFamily a = raised .unsupportedAddressFamily := by
  simp [addressFamily, familyOfLength, h4, h16]

theorem addressFamily_ok {a : Bytes} {f : Family} (h : a.length = f.addrLen) : addressFamily a = .ok f := by
  simp [addressFamily, familyOfLength_some.mpr h]

/-- What `Validate` does with a present attribute, in R83's order. -/
theorem validate_some (a : Bytes) :
    validate (some a) =
      if a.length ≠ 0 ∧ a.length % 4 = 0 ∧ a[0]? = some 0x00#8 then .ok a else raised .malformedAttribute := by
  cases a with
  | nil => simp [validate]
  | cons x xs =>
    have hx : byteAt (x :: xs) 0 = .ok x := byteAt_ok.mpr rfl
    simp only [validate, hx, bind, Except.bind, pure, Except.pure]
    by_cases hm : (x :: xs).length % 4 = 0 <;> by_cases h0 : x = 0x00#8 <;> simp_all

/-- What `CheckHeader` does with a present header, in R100's order. -/
theorem checkHeader_some (h : Bytes) :
    checkHeader (some h) =
      if h.length = 20 ∧ (h.getD 0 0) &&& 0xC0#8 = 0x00#8 then .ok h else raised .invalidInput := by
  cases h with
  | nil => simp [checkHeader]
  | cons x xs =>
    have hx : byteAt (x :: xs) 0 = .ok x := byteAt_ok.mpr rfl
    simp only [checkHeader, hx, bind, Except.bind, pure, Except.pure]
    by_cases hl : (x :: xs).length = 20 <;> by_cases h0 : x &&& 0xC0#8 = 0x00#8 <;> simp_all

/-- What `TagLenCheck` does with an attribute of at least 4 bytes (R86). -/
theorem tagLenCheck_of (a : Bytes) (ha : 4 ≤ a.length) :
    (∃ f : Family, a[1]? = some f.tag ∧ a.length = 4 + f.addrLen ∧ tagLenCheck a = .ok f) ∨
    ((∀ f : Family, a[1]? = some f.tag → a.length ≠ 4 + f.addrLen) ∧ tagLenCheck a = raised .malformedAttribute) := by
  have h1 : 1 < a.length := by omega
  have hb := byteAt_inside h1
  simp only [tagLenCheck, hb, bind, Except.bind, pure, Except.pure]
  by_cases t1 : a[1] = 0x01#8
  · by_cases hl : a.length = 8
    · exact .inl ⟨.ipv4, by simp [h1, t1, Family.tag], by simp [hl, Family.addrLen],
        by simp [t1, familyOfTag, hl, Family.addrLen]⟩
    · refine .inr ⟨fun f hf => ?_, by simp [t1, familyOfTag, hl, Family.addrLen]⟩
      cases f <;> simp_all [Family.tag, Family.addrLen]
  · by_cases t2 : a[1] = 0x02#8
    · by_cases hl : a.length = 20
      · exact .inl ⟨.ipv6, by simp [h1, t2, Family.tag], by simp [hl, Family.addrLen],
          by simp [t2, familyOfTag, hl, Family.addrLen]⟩
      · refine .inr ⟨fun f hf => ?_, by simp [t2, familyOfTag, hl, Family.addrLen]⟩
        cases f <;> simp_all [Family.tag, Family.addrLen]
    · refine .inr ⟨fun f hf => ?_, by simp [t1, t2, familyOfTag]⟩
      cases f <;> simp_all [Family.tag]

/-- A calculation that meets no guard of the model: it answers a value or raises an error kind. -/
def Calc.Guarded {α : Type} (c : Calc α) : Prop := ∀ f, c ≠ .error (.fault f)

theorem checkHeader_guarded (hdr : Option Bytes) : Calc.Guarded (checkHeader hdr) := by
  intro f
  cases hdr with
  | none => simp [checkHeader, raised]
  | some h => rw [checkHeader_some]; split <;> simp [raised]

theorem validate_guarded (attr : Option Bytes) : Calc.Guarded (validate attr) := by
  intro f
  cases attr with
  | none => simp [validate, raised]
  | some a => rw [validate_some]; split <;> simp [raised]

theorem addressFamily_guarded (a : Bytes) : Calc.Guarded (addressFamily a) := by
  intro f
  unfold addressFamily
  split <;> simp [raised]

/-- What passes `CheckHeader` has 20 bytes, and is what was in HDR. -/
theorem checkHeader_ok {hdr : Option Bytes} {h : Bytes} (hc : checkHeader hdr = .ok h) :
    hdr = some h ∧ h.length = 20 ∧ (h.getD 0 0) &&& 0xC0#8 = 0x00#8 := by
  cases hdr with
  | none => simp [checkHeader, raised] at hc
  | some h' =>
    rw [checkHeader_some] at hc
    split at hc
    · rename_i hh; simp only [Except.ok.injEq] at hc; subst hc; exact ⟨rfl, hh⟩
    · simp [raised] at hc

/-- What passes `Validate` has at least 4 bytes, a whole number of 4-byte groups and a zero first byte, and is what was in
ATTR. -/
theorem validate_ok {attr : Option Bytes} {a : Bytes} (hv : validate attr = .ok a) :
    attr = some a ∧ 4 ≤ a.length ∧ a.length % 4 = 0 ∧ a[0]? = some 0x00#8 := by
  cases attr with
  | none => simp [validate, raised] at hv
  | some a' =>
    rw [validate_some] at hv
    split at hv
    · rename_i hh; simp only [Except.ok.injEq] at hv; subst hv; exact ⟨rfl, by omega, hh.2⟩
    · simp [raised] at hv

/-- The key is inside the header for every n up to 16 (R101). -/
theorem keyBytes_inside {h : Bytes} {n : Nat} (hl : h.length = 20) (hn : n ≤ 16) :
    keyBytes h n = .ok ((h.drop 4).take n) := memRead_inside (by omega)

end Sys2Proof.Machine
end

