-- ==== Sys2Proof/Laws/HostPort.lean ====
section
/-!
SUPPORT. What a host action and a command can do, once: the inversion of `perform` and of `exec`; later proofs cite these and do
not unfold the host port.
-/

namespace Sys2Proof.Machine

/-- The calculation of each command, with exactly the operands R53 lists for it. -/
def calcOf : Instr → State → Calc Result
  | .tlvEnc type, s => tlvEncCalc type s.mem.val
  | .maEnc, s => maEncCalc s.mem.addr s.port
  | .maVal, s => maValCalc s.mem.attr
  | .maPort, s => maPortCalc s.mem.attr
  | .maAddr, s => maAddrCalc s.mem.attr
  | .xmaChk, s => xmaChkCalc s.mem.hdr
  | .xmaEnc, s => xmaEncCalc s.mem.hdr s.mem.addr s.port
  | .xmaPort, s => xmaPortCalc s.mem.hdr s.mem.attr
  | .xmaAddr, s => xmaAddrCalc s.mem.hdr s.mem.attr

/-- Every command is its calculation and then R125's end. -/
theorem exec_eq_finish (i : Instr) (s : State) : exec i s = finish (calcOf i s) s := by cases i <;> rfl

/-- A command that answers a next state succeeded with its calculation's result or raised an error kind. -/
theorem exec_next {i : Instr} {s t : State} (h : exec i s = .next t) :
    (∃ r, calcOf i s = .ok r ∧ t = succeed r.out r.port s) ∨
    (∃ e, calcOf i s = .error (.error e) ∧ t = raiseError e s) := by
  rw [exec_eq_finish] at h
  exact finish_next h

/-- A command word that answers a next state ran a command or raised an error kind. -/
theorem hostCmd_next {w : Word} {s t : State} (h : hostCmd w s = .next t) :
    (∃ i r, decode w = .ok i ∧ calcOf i s = .ok r ∧ t = succeed r.out r.port s) ∨ (∃ e, t = raiseError e s) := by
  unfold hostCmd at h
  split at h
  · rename_i i hi
    rcases exec_next h with ⟨r, hc, ht⟩ | ⟨e, -, ht⟩
    · exact .inl ⟨i, r, hi, hc, ht⟩
    · exact .inr ⟨e, ht⟩
  · exact .inr ⟨_, by simpa [eq_comm] using h⟩

/-- A load that takes place is of a buffer other than OUT, within capacity, and stores exactly the bytes. -/
theorem hostLoad_next {b : Buffer} {bs : Bytes} {s t : State} (h : hostLoad b bs s = .next t) :
    b ≠ .out ∧ bs.length ≤ b.capacity ∧ t = { s with mem := s.mem.store bs b } := by
  unfold hostLoad at h
  split at h
  · simp at h
  · rename_i hb
    split at h
    · rename_i hl
      exact ⟨by rintro rfl; exact hb rfl, hl, by simpa [eq_comm] using h⟩
    · simp at h

/-- Within capacity a load of a buffer other than OUT takes place. -/
theorem hostLoad_fits {b : Buffer} {bs : Bytes} (s : State) (hb : b ≠ .out) (hl : bs.length ≤ b.capacity) :
    hostLoad b bs s = .next { s with mem := s.mem.store bs b } := by
  have : b.hostLoads = true := by cases b <;> first | rfl | exact absurd rfl hb
  unfold hostLoad
  rw [this, if_neg (by simp), if_pos hl]

/-- Above capacity it has no step. -/
theorem hostLoad_over {b : Buffer} {bs : Bytes} (s : State) (hb : b ≠ .out) (hl : b.capacity < bs.length) :
    hostLoad b bs s = .refused .overCapacity := by
  have : b.hostLoads = true := by cases b <;> first | rfl | exact absurd rfl hb
  unfold hostLoad
  rw [this, if_neg (by simp), if_neg (by omega)]

/-- All a host action can do: run a command word, store within capacity into a buffer other than OUT, make a buffer absent, write
PORT, or give the host an answer. -/
theorem perform_next {a : HostAction} {s t : State} (h : perform a s = .next t) :
    (∃ w, a = .cmd w ∧ hostCmd w s = .next t) ∨
    (∃ b bs, b ≠ .out ∧ bs.length ≤ b.capacity ∧ t = { s with mem := s.mem.store bs b }) ∨
    (∃ b m, s.mem.makeAbsent b = some m ∧ t = { s with mem := m }) ∨
    (∃ p, t = { s with port := p }) ∨
    (∃ as, t = { s with answers := as }) := by
  cases a with
  | load b bs => exact .inr (.inl ⟨b, bs, hostLoad_next h⟩)
  | absent b =>
    simp only [perform, hostAbsent] at h
    split at h
    · rename_i m hm; exact .inr (.inr (.inl ⟨b, m, hm, by simpa [eq_comm] using h⟩))
    · simp at h
  | setPort v =>
    simp only [perform, hostSetPort] at h
    split at h
    · exact .inr (.inr (.inr (.inl ⟨_, by simpa [eq_comm] using h⟩)))
    · simp at h
  | cmd w => exact .inl ⟨w, rfl, h⟩
  | read x =>
    simp only [perform, hostRead] at h
    split at h
    · exact .inr (.inr (.inr (.inr ⟨_, by simpa [eq_comm] using h⟩)))
    · simp at h
  | copy b =>
    simp only [perform, hostCopy] at h
    split at h
    · exact .inr (.inl ⟨b, _, hostLoad_next h⟩)
    · simp at h

/-- All a step can do: idle with nothing on the agenda, reset the block, or perform the next host action. -/
theorem step_next {s t : State} (h : step s = .next t) :
    (s.agenda = [] ∧ t = s) ∨
    (∃ rest, s.agenda = .reset :: rest ∧ t = resetBlock { s with agenda := rest }) ∨
    (∃ a rest, s.agenda = .action a :: rest ∧ perform a { s with agenda := rest } = .next t) := by
  simp only [step, nextEvent] at h
  split at h
  · rename_i ha; exact .inl ⟨ha, by simpa [eq_comm] using h⟩
  · rename_i e rest ha
    cases e with
    | reset => exact .inr (.inl ⟨rest, ha, by simpa [performEvent, eq_comm] using h⟩)
    | action a => exact .inr (.inr ⟨a, rest, ha, h⟩)

end Sys2Proof.Machine
end

