-- ==== Sys2Proof/Laws/PerInstr.lean ====
section
/-!
SUPPORT. Statements made of every command as syntax, one lemma per constructor (LAWS.json, "per_instruction").
-/

namespace Sys2Proof.Laws.EncodedFormat

/-- R51: the word of a command has ZERO = 0, and the upper half is the immediate of format T or ZERO16 = 0. -/
def Statement (i : Instr) : Prop :=
  i.wf = true ∧ zeroField (encode i) = 0 ∧
    match i with
    | .tlvEnc type => imm16Field (encode i) = type ∧ opcField (encode i) = 0x01#8
    | _ => imm16Field (encode i) = 0 ∧ opcAssigned (encode i) = true

theorem tlvEnc (type : Half) : Statement (.tlvEnc type) := by
  refine ⟨rfl, ?_, ?_, ?_⟩ <;>
    · apply BitVec.eq_of_getLsbD_eq
      intro i hi
      simp only [zeroField, imm16Field, opcField, encode, BitVec.getLsbD_extractLsb', BitVec.getLsbD_or,
        BitVec.getLsbD_shiftLeft, BitVec.getLsbD_setWidth]
      interval_cases i <;> simp

theorem maEnc : Statement .maEnc := ⟨rfl, by decide, by decide, by decide⟩
theorem maVal : Statement .maVal := ⟨rfl, by decide, by decide, by decide⟩
theorem maPort : Statement .maPort := ⟨rfl, by decide, by decide, by decide⟩
theorem maAddr : Statement .maAddr := ⟨rfl, by decide, by decide, by decide⟩
theorem xmaChk : Statement .xmaChk := ⟨rfl, by decide, by decide, by decide⟩
theorem xmaEnc : Statement .xmaEnc := ⟨rfl, by decide, by decide, by decide⟩
theorem xmaPort : Statement .xmaPort := ⟨rfl, by decide, by decide, by decide⟩
theorem xmaAddr : Statement .xmaAddr := ⟨rfl, by decide, by decide, by decide⟩

end Sys2Proof.Laws.EncodedFormat
end

