-- ==== Sys2Proof/Machine/Listing.lean ====
section
/-!
DEFINITION. The listing syntax of spec/30_encoding.md R58: how a command and a host action are spelled in a program listing.
It has no effect on the block.
-/

namespace Sys2Proof.Machine

/-- One hexadecimal digit. -/
def hexDigit (n : Nat) : Char :=
  "0123456789ABCDEF".toList.getD n '0'

/-- A byte as two hexadecimal digits (R6). -/
def hexByte (b : Byte) : String :=
  String.ofList [hexDigit (b.toNat / 16), hexDigit (b.toNat % 16)]

/-- A byte sequence in wire order, a space between bytes (R6); `empty` for none (R58). -/
def hexBytes : Bytes → String
  | [] => "empty"
  | [b] => hexByte b
  | b :: bs => hexByte b ++ " " ++ hexBytes bs

/-- The name of a buffer (R11). -/
def Buffer.spelling : Buffer → String
  | .hdr => "HDR" | .addr => "ADDR" | .val => "VAL" | .attr => "ATTR" | .out => "OUT"

/-- The name of an item (R11). -/
def Item.spelling : Item → String
  | .cmd => "CMD" | .status => "STATUS" | .port => "PORT" | .rport => "RPORT" | .outLen => "OUT_LEN"
  | .buffer b => b.spelling

/-- A command as a listing spells it: its bare mnemonic, and for TLV.ENC the type, here in hexadecimal (R58, log entry 12). -/
def commandLine (i : Instr) : String :=
  match i with
  | .tlvEnc type => i.mnemonic.spelling ++ " 0x" ++ hexByte (type.extractLsb' 8 8) ++ hexByte (type.extractLsb' 0 8)
  | .maEnc | .maVal | .maPort | .maAddr | .xmaChk | .xmaEnc | .xmaPort | .xmaAddr => i.mnemonic.spelling

/-- A host action's listing line (R58); a CMD write of a word that is no command has no line of R58. -/
def listingLine (a : HostAction) : Option String :=
  match a with
  | .load b bytes => some ("H.LOAD " ++ b.spelling ++ ", " ++ hexBytes bytes)
  | .absent b => some ("H.ABSENT " ++ b.spelling)
  | .setPort v => some ("H.PORT " ++ toString v)
  | .copy b => some ("H.COPY " ++ b.spelling ++ ", OUT")
  | .read x => some ("H.READ " ++ x.spelling)
  | .cmd w =>
    match decode w with
    | .ok i => some (commandLine i)
    | .error _ => none

end Sys2Proof.Machine
end

