-- ==== Sys2Proof/Tests/Slice0.lean ====
section
/-!
SUPPORT. The model's own tests. Expected values are transcribed from spec/95_test_vectors.md and the opcode map of
spec/30_encoding.md R54; the vector's id stands in each comment. The second half shows, for every statement that has
hypotheses, concrete values that meet them.
-/

namespace Sys2Proof.Tests

open Sys2Proof.Machine Sys2Proof.Claims

/-! ### Helpers -/

/-- The next state of an outcome, if it has one. -/
def nextOf (o : Host.Outcome State Fault Refusal) : Option State :=
  match o with
  | .next s => some s
  | .fault _ => none
  | .refused _ => none

/-- STATUS, RPORT and OUT of an outcome's next state. -/
def resultsOf (o : Host.Outcome State Fault Refusal) : Option (Word × Word × Bytes) :=
  (nextOf o).map fun s => (s.status, s.rport, s.mem.out)

/-- A block with operands loaded and its results as after reset. -/
def loaded (hdr attr : Option Bytes) (addr val : Bytes) (port : Word) : State :=
  { State.reset with port := port, mem := { Memory.reset with hdr := hdr, attr := attr, addr := addr, val := val } }

/-- The example header HX of 95_test_vectors.md. -/
def hx : Bytes :=
  [0x00, 0x01, 0x00, 0x00, 0x04, 0x05, 0x06, 0x07, 0x08, 0x09, 0x0A, 0x0B, 0x0C, 0x0D, 0x0E, 0x0F, 0x10, 0x11, 0x12, 0x13]

/-- The IPv6 address of ME2. -/
def v6 : Bytes := [0x20, 0x01, 0x0D, 0xB8, 0, 0, 0, 0, 0, 0, 0, 0, 0, 0, 0, 0x01]

/-- A header with its top bit set (XC5). -/
def badHeader : Bytes := 0x80 :: List.replicate 19 0x00

/-! ### Well-formedness: one ill-formed term for each check -/

theorem test_wf_load_out_is_ill_formed : (HostAction.load .out []).wf = false := by decide
theorem test_wf_load_over_capacity_is_ill_formed : (HostAction.load .hdr (List.replicate 33 0)).wf = false := by decide
theorem test_wf_load_at_capacity : (HostAction.load .hdr (List.replicate 32 0)).wf = true := by decide
theorem test_wf_absent_addr_is_ill_formed : (HostAction.absent .addr).wf = false := by decide
theorem test_wf_port_too_large_is_ill_formed : (HostAction.setPort 2147483648).wf = false := by decide
theorem test_wf_port_too_small_is_ill_formed : (HostAction.setPort (-2147483649)).wf = false := by decide
theorem test_wf_read_cmd_is_ill_formed : (HostAction.read .cmd).wf = false := by decide
theorem test_wf_copy_to_hdr_is_ill_formed : (HostAction.copy .hdr).wf = false := by decide
theorem test_wf_asm_type_too_large_is_ill_formed : (AsmLine.mk .tlvEnc (some 0x10000)).wf = false := by decide
theorem test_wf_asm_type_missing_is_ill_formed : (AsmLine.mk .tlvEnc none).wf = false := by decide
theorem test_wf_asm_operand_on_format_n_is_ill_formed : (AsmLine.mk .maEnc (some 0)).wf = false := by decide
theorem test_wf_every_instr : Instr.wf (.tlvEnc 0xFFFF) = true ∧ Instr.wf .xmaAddr = true := by decide

/-! ### Decoding: each command's word, written out from R54 -/

theorem test_decode_tlvEnc : decode 0x80220001#32 = .ok (.tlvEnc 0x8022) := rfl
theorem test_decode_tlvEnc_zero : decode 0x00000001#32 = .ok (.tlvEnc 0x0000) := rfl
theorem test_decode_tlvEnc_ones : decode 0xFFFF0001#32 = .ok (.tlvEnc 0xFFFF) := rfl
theorem test_decode_maEnc : decode 0x00000010#32 = .ok .maEnc := rfl
theorem test_decode_maVal : decode 0x00000011#32 = .ok .maVal := rfl
theorem test_decode_maPort : decode 0x00000012#32 = .ok .maPort := rfl
theorem test_decode_maAddr : decode 0x00000013#32 = .ok .maAddr := rfl
theorem test_decode_xmaChk : decode 0x00000020#32 = .ok .xmaChk := rfl
theorem test_decode_xmaEnc : decode 0x00000021#32 = .ok .xmaEnc := rfl
theorem test_decode_xmaPort : decode 0x00000022#32 = .ok .xmaPort := rfl
theorem test_decode_xmaAddr : decode 0x00000023#32 = .ok .xmaAddr := rfl
/-- IL1 to IL3, IL6: OPC not assigned. -/
theorem test_decode_unassigned :
    decode 0x00000000#32 = .error .unassignedOpcode ∧ decode 0x00000002#32 = .error .unassignedOpcode ∧
    decode 0x00000014#32 = .error .unassignedOpcode ∧ decode 0xFFFFFFFF#32 = .error .unassignedOpcode := ⟨rfl, rfl, rfl, rfl⟩
/-- IL4, T11: `w[15:8]` not zero. -/
theorem test_decode_zero_field :
    decode 0x00000110#32 = .error .zeroFieldSet ∧ decode 0x00010101#32 = .error .zeroFieldSet := ⟨rfl, rfl⟩
/-- IL5: format N with `w[31:16]` not zero. -/
theorem test_decode_zero16_field : decode 0x00010010#32 = .error .zero16FieldSet := rfl
/-- R58: `TLV.ENC 0x8022` is word 0x80220001; P5: the others are their word of R54. -/
theorem test_assemble :
    assemble ⟨.tlvEnc, some 0x8022⟩ = some 0x80220001#32 ∧ assemble ⟨.xmaAddr, none⟩ = some 0x00000023#32 := ⟨rfl, rfl⟩

/-- P1 and P2: listing lines. -/
theorem test_listing :
    listingLine (.load .addr [0xC0, 0xA8, 0x01, 0x7B]) = some "H.LOAD ADDR, C0 A8 01 7B" ∧
    listingLine (.copy .attr) = some "H.COPY ATTR, OUT" ∧ listingLine (.cmd 0x00000022#32) = some "XMA.PORT" := by decide

/-! ### The commands -/

/-- T2: three bytes of value, one of padding. -/
theorem test_tlvEnc_pads :
    resultsOf (exec (.tlvEnc 0x8022) (loaded none none [] [0x61, 0x62, 0x63] 0)) =
      some (0x100, 0, [0x80, 0x22, 0x00, 0x03, 0x61, 0x62, 0x63, 0x00]) := by decide
/-- T5: a value of 4 bytes gets no padding (90_conflicts.md C1). -/
theorem test_tlvEnc_no_padding :
    resultsOf (exec (.tlvEnc 0x0006) (loaded none none [] [0x11, 0x22, 0x33, 0x44] 0)) =
      some (0x100, 0, [0x00, 0x06, 0x00, 0x04, 0x11, 0x22, 0x33, 0x44]) := by decide
/-- ME7: a negative port is truncated to its low 16 bits. -/
theorem test_maEnc_truncates :
    resultsOf (exec .maEnc (loaded none none [0xC0, 0xA8, 0x01, 0x7B] [] 0xFFFF8000)) =
      some (0x100, 0, [0x00, 0x01, 0x80, 0x00, 0xC0, 0xA8, 0x01, 0x7B]) := by decide
/-- ME2: an IPv6 address. -/
theorem test_maEnc_ipv6 :
    resultsOf (exec .maEnc (loaded none none v6 [] 3478)) = some (0x100, 0, [0x00, 0x02, 0x0D, 0x96] ++ v6) := by decide
/-- MV7: the tag is not looked at. -/
theorem test_maVal_ignores_tag :
    resultsOf (exec .maVal (loaded none (some [0x00, 0x07, 0x12, 0x34]) [] [] 0)) = some (0x100, 0, []) := by decide
/-- MV6: the reserved byte must be 0. -/
theorem test_maVal_reserved_byte :
    resultsOf (exec .maVal (loaded none (some [0x80, 0x01, 0x00, 0x50, 1, 2, 3, 4]) [] [] 0)) = some (0x103, 0, []) := by decide
/-- MP3: four bytes and tag 9 are enough. -/
theorem test_maPort_reads :
    resultsOf (exec .maPort (loaded none (some [0x00, 0x09, 0x12, 0x34]) [] [] 0)) = some (0x100, 0x1234, []) := by decide
/-- MP4: the accessor validates first (D13). -/
theorem test_maPort_validates :
    resultsOf (exec .maPort (loaded none (some [0x01, 0x01, 0x00, 0x50, 0, 0, 0, 0]) [] [] 0)) = some (0x103, 0, []) := by decide
/-- MA1. -/
theorem test_maAddr_ipv4 :
    resultsOf (exec .maAddr (loaded none (some [0x00, 0x01, 0xFF, 0xFF, 0xC0, 0xA8, 0x01, 0x7B]) [] [] 0)) =
      some (0x100, 0, [0xC0, 0xA8, 0x01, 0x7B]) := by decide
/-- MA3: tag IPv6 on 8 bytes. -/
theorem test_maAddr_tag_mismatch :
    resultsOf (exec .maAddr (loaded none (some [0x00, 0x02, 0xFF, 0xFF, 0xC0, 0xA8, 0x01, 0x7B]) [] [] 0)) =
      some (0x103, 0, []) := by decide
/-- XC8: 0x3F has both top bits clear. -/
theorem test_xmaChk_passes :
    resultsOf (exec .xmaChk (loaded (some (0x3F :: List.replicate 19 0)) none [] [] 0)) = some (0x100, 0, []) := by decide
/-- XC6: bit 6 of byte 0. -/
theorem test_xmaChk_bit6 :
    resultsOf (exec .xmaChk (loaded (some (0x40 :: List.replicate 19 0)) none [] [] 0)) = some (0x101, 0, []) := by decide
/-- XE2: an IPv6 address under HX. -/
theorem test_xmaEnc_ipv6 :
    resultsOf (exec .xmaEnc (loaded (some hx) none v6 [] 3478)) =
      some (0x100, 0, [0x00, 0x02, 0x09, 0x93, 0x24, 0x04, 0x0B, 0xBF, 0x08, 0x09, 0x0A, 0x0B, 0x0C, 0x0D, 0x0E, 0x0F, 0x10, 0x11,
        0x12, 0x12]) := by decide
/-- XE8: the header is checked before the address. -/
theorem test_xmaEnc_header_first :
    resultsOf (exec .xmaEnc (loaded (some badHeader) none [0, 0, 0] [] 1)) = some (0x101, 0, []) := by decide
/-- XP3. -/
theorem test_xmaPort_recovers :
    resultsOf (exec .xmaPort (loaded (some hx) (some [0x00, 0x09, 0xAE, 0xAF]) [] [] 0)) = some (0x100, 0xAAAA, []) := by decide
/-- XP7: good header, five bytes. -/
theorem test_xmaPort_validates :
    resultsOf (exec .xmaPort (loaded (some hx) (some [0, 0, 0, 0, 0]) [] [] 0)) = some (0x103, 0, []) := by decide
/-- XA1. -/
theorem test_xmaAddr_recovers :
    resultsOf (exec .xmaAddr (loaded (some hx) (some [0x00, 0x01, 0xAE, 0xAF, 0xC4, 0xAD, 0x05, 0xED]) [] [] 0)) =
      some (0x100, 0, [0xC0, 0xA8, 0x03, 0xEA]) := by decide
/-- XA5: a header of 19 bytes. -/
theorem test_xmaAddr_short_header :
    resultsOf (exec .xmaAddr (loaded (some (List.replicate 19 0)) (some [0x00, 0x01, 0xAE, 0xAF, 0xC4, 0xAD, 0x05, 0xED]) [] [] 0)) =
      some (0x101, 0, []) := by decide

/-! ### The step -/

/-- P5 step 5: a word of zeros is reported, and the agenda moves on. -/
theorem test_step_illegal :
    resultsOf (step (State.reset.withFetchWord 32 0)) = some (0x104, 0, []) := by decide
/-- RS6: `TLV.ENC 0xABCD` straight after reset. -/
theorem test_step_tlv_after_reset :
    resultsOf (step (State.reset.withFetchWord 32 0xABCD0001)) = some (0x100, 0, [0xAB, 0xCD, 0x00, 0x00]) := by decide
/-- RS2: HDR reads absent after reset. -/
theorem test_step_read_hdr :
    (nextOf (step { State.reset with agenda := [.action (.read (.buffer .hdr))] })).map (·.answers) = some [.absent] := by decide
/-- A reset between two host actions leaves nothing of the operands (R140). -/
theorem test_step_reset :
    (nextOf (step { loaded (some hx) none v6 [] 7 with agenda := [.reset] })).map (fun s => (s.port, s.mem)) =
      some (0, Memory.reset) := by decide

/-! ### Witnesses: for each statement with hypotheses, values that meet them -/

/-- A valid IPv4 value and a valid IPv6 value. -/
def attr4 : Bytes := [0x00, 0x01, 0xAE, 0xAF, 0xC4, 0xAD, 0x05, 0xED]
def attr6 : Bytes := [0x00, 0x02, 0x09, 0x93] ++ v6

/-- Everything loaded, an IPv4 address and value. -/
def full4 : State := loaded (some hx) (some attr4) [0xC0, 0xA8, 0x03, 0xEA] [0x11] 0xAAAA
/-- Everything loaded, an IPv6 address and value. -/
def full6 : State := loaded (some hx) (some attr6) v6 [0x11] 0xAAAA
/-- Operands that every check turns away: an absent header, an empty attribute, an address of 3 bytes. -/
def poor : State := loaded none (some []) [0, 0, 0] [] 0

theorem good_hx : GoodHeader (some hx) := ⟨hx, 0x00, rfl, rfl, rfl, by decide, by decide⟩
theorem good_3F : GoodHeader (some (0x3F :: List.replicate 19 0)) := ⟨_, 0x3F, rfl, rfl, rfl, by decide, by decide⟩
theorem bad_absent : ¬ GoodHeader none := by rintro ⟨h, b, hh, -⟩; cases hh
theorem bad_top_bit : ¬ GoodHeader (some badHeader) := by
  rintro ⟨h, b, hh, -, hb, h7, -⟩
  cases hh
  simp only [badHeader, List.getElem?_cons_zero, Option.some.injEq] at hb
  subst hb
  revert h7; decide
theorem valid_attr4 : ValidBytes attr4 := ⟨by decide, by decide, by decide⟩
theorem valid_attr6 : ValidBytes attr6 := ⟨by decide, by decide, by decide⟩
theorem valid_four : ValidBytes [0x00, 0x07, 0x12, 0x34] := ⟨by decide, by decide, by decide⟩
theorem fits_attr4 : TagFitsLength attr4 := .inl ⟨by decide, by decide⟩
theorem fits_attr6 : TagFitsLength attr6 := .inr ⟨by decide, by decide⟩
theorem not_fits_four : ¬ (ValidBytes [0x00, 0x07, 0x12, 0x34] ∧ TagFitsLength [0x00, 0x07, 0x12, 0x34]) := by
  rintro ⟨-, ⟨-, h⟩ | ⟨-, h⟩⟩ <;> exact absurd h (by decide)
theorem invalid_empty : ¬ ValidBytes [] := fun h => h.1 rfl
theorem invalid_five : ¬ ValidBytes [0, 0, 0, 0, 0] := fun h => absurd h.2.1 (by decide)
theorem invalid_reserved : ¬ ValidBytes [0x01, 0x01, 0x00, 0x50] := fun h => absurd h.2.2 (by decide)

theorem witness_ResetLeavesTheStatedValues : Instr.maVal = .maVal ∧ IsXor .xmaEnc := ⟨rfl, trivial⟩

theorem witness_ResetEventForgetsEverything :
    ({ full4 with agenda := [.reset, .action (.read .status)] } : State).agenda = .reset :: [.action (.read .status)] := rfl

theorem witness_StepKeepsInv : ∃ s t : State, s.Inv ∧ step s = .next t ∧ t ≠ s :=
  ⟨{ full4 with agenda := [.action (.cmd 0x21)] }, _, ⟨by decide, .inl ⟨rfl, rfl, rfl⟩⟩, rfl, by decide⟩

theorem witness_StepKeepsMemoryForm :
    ∃ s t : State, s.mem.wf = true ∧ step s = .next t ∧ t.mem.hdr = some (List.replicate 32 0xFF) :=
  ⟨{ full4 with agenda := [.action (.load .hdr (List.replicate 32 0xFF))] }, _, by decide, rfl, rfl⟩

theorem witness_NoStepFaults : ({ full6 with agenda := [.action (.cmd 0x23)] } : State).mem.wf = true := by decide

theorem witness_DecodeEncodeRoundTrip : (Instr.tlvEnc 0xFFFF).wf = true := rfl

theorem witness_DecodedWordIsItsEncoding : decode 0xFFFF0001#32 = .ok (.tlvEnc 0xFFFF) := rfl

theorem witness_OpcodeMapIsUnambiguous :
    ∃ r ∈ opcodeTable, r.selects 0x80220001#32 = true := ⟨⟨.tlvEnc, 0x00000001#32, 0x0000FFFF#32⟩, by decide, by decide⟩

theorem witness_IllegalCommandsAreReported :
    decode 0x00010010#32 = .error .zero16FieldSet ∧ 0x00010010#32 ∈ [0x00000000#32, 0x00010010#32] := ⟨rfl, by decide⟩

theorem witness_AssemblerWords :
    (65535 : Nat) ≤ 0xFFFF ∧ 0xFFFF < (65536 : Nat) ∧ Mnemonic.maEnc ≠ .tlvEnc ∧ Instr.xmaAddr.mnemonic ≠ .tlvEnc := by decide

theorem witness_StepRunsTheDecodedCommand :
    ({ full4 with agenda := [.action (.cmd 0x22), .reset] } : State).agenda = .action (.cmd 0x22#32) :: [.reset] ∧
    decode 0x22#32 = .ok .xmaPort ∧
    ({ full4 with agenda := [.action (.cmd 0x24)] } : State).agenda = .action (.cmd 0x24#32) :: [] ∧
    decode 0x24#32 = .error .unassignedOpcode := ⟨rfl, rfl, rfl, rfl⟩

theorem witness_StepConsumesTheFirstEvent :
    full4.agenda = [] ∧
    ∃ t, step { full4 with agenda := [.action (.absent .hdr), .reset] } = .next t ∧ t.mem.hdr = none := ⟨rfl, _, rfl, rfl⟩

theorem witness_HostLoadFillsOneBuffer :
    Buffer.hdr ≠ .out ∧ (List.replicate 32 0x00#8).length ≤ Buffer.hdr.capacity ∧
    Buffer.hdr.capacity < (List.replicate 33 0x00#8).length ∧
    (List.replicate 65535 0x00#8).length ≤ Buffer.val.capacity ∧ Buffer.out = .out := by
  simp only [List.length_replicate]; decide

theorem witness_HostAbsentEmptiesOneBuffer : Buffer.attr = .attr ∧ Buffer.val = .val := ⟨rfl, rfl⟩

theorem witness_HostSetPortWritesTheInteger :
    (-2147483648 : Int) ≤ -2147483648 ∧ (2147483647 : Int) ≤ 2147483647 ∧ (-2147483649 : Int) < -2147483648 ∧
    (2147483647 : Int) < 2147483648 := by decide

theorem witness_HostReadChangesNothing :
    full4.mem.fetch .hdr = some hx ∧ poor.mem.fetch .hdr = none := ⟨rfl, rfl⟩

theorem witness_HostCopyIsALoadOfOut :
    (List.replicate 32 0x00#8).length ≤ 32 ∧ 32 < (List.replicate 33 0x00#8).length ∧
    (List.replicate 65535 0x00#8).length ≤ 65535 ∧ 65535 < (List.replicate 65536 0x00#8).length ∧ Buffer.addr = .addr := by
  simp only [List.length_replicate]; decide

theorem witness_HostActionsLeaveResults :
    (∀ w, HostAction.copy .attr ≠ .cmd w) ∧ ∃ t, perform (.copy .attr) full4 = .next t := ⟨fun _ => by simp, _, rfl⟩

theorem witness_EveryCommandCompletes :
    (loaded none none [] (List.replicate 65535 0xAB) 0).mem.val.length ≤ 65535 ∧ Instr.xmaAddr.mnemonic ≠ .tlvEnc :=
  ⟨(List.length_replicate (n := 65535) (a := 0xAB#8)).le, by decide⟩

theorem witness_CommandsLeaveOperands :
    (∃ t, exec .xmaEnc full6 = .next t) ∧ (∃ t, perform (.cmd 0) full6 = .next t) ∧ Buffer.attr ≠ .out :=
  ⟨⟨_, rfl⟩, ⟨_, rfl⟩, by decide⟩

theorem witness_ResultsDependOnOperandsAlone :
    ∃ t t', SameOperands full4 { full4 with status := 0x103, rport := 9 } ∧ perform (.cmd 0x21) full4 = .next t ∧
      perform (.cmd 0x21) { full4 with status := 0x103, rport := 9 } = .next t' :=
  ⟨_, _, ⟨rfl, rfl, rfl, rfl, rfl⟩, rfl, rfl⟩

theorem witness_CommandsReadListedOperandsOnly :
    ∃ t t', AgreeOnOperands .maEnc full4 { full4 with mem := { full4.mem with hdr := none, val := [], attr := none } } ∧
      exec .maEnc full4 = .next t ∧
      exec .maEnc { full4 with mem := { full4.mem with hdr := none, val := [], attr := none } } = .next t' :=
  ⟨_, _, ⟨rfl, rfl⟩, rfl, rfl⟩

theorem witness_HeaderBytes1To3AreNeverRead :
    ∃ t t', full6.mem.hdr = some hx ∧ AgreeOffBytes1To3 hx ([0x00, 0xFF, 0xFF, 0xFF] ++ hx.drop 4) ∧ exec .xmaEnc full6 = .next t ∧
      exec .xmaEnc { full6 with mem := { full6.mem with hdr := some ([0x00, 0xFF, 0xFF, 0xFF] ++ hx.drop 4) } } = .next t' :=
  ⟨_, _, rfl, ⟨rfl, rfl, rfl, rfl⟩, rfl, rfl⟩

theorem witness_CommandsAreIdempotent : ∃ t, exec .xmaAddr full6 = .next t := ⟨_, rfl⟩

theorem witness_StatusAfterAnyCommand : ∃ t, perform (.cmd 0xFFFFFFFF) full4 = .next t := ⟨_, rfl⟩

theorem witness_OnlyResetClearsDone :
    ∃ s t : State, (∀ rest, s.agenda ≠ .reset :: rest) ∧ doneField s.status = true ∧ step s = .next t :=
  ⟨{ full4 with status := 0x100, agenda := [.action (.read .status)] }, _, fun _ => by simp, by decide, rfl⟩

theorem witness_OnlyResetClearsDone_reset : ∃ t, step { full4 with status := 0x100, agenda := [.reset] } = .next t := ⟨_, rfl⟩

theorem witness_OutcomesOfEachCommand :
    (∃ t, exec .xmaPort poor = .next t) ∧ 3 ∈ outcomesOf .xmaPort ∧ decode 0x14#32 = .error .unassignedOpcode :=
  ⟨⟨_, rfl⟩, by decide, rfl⟩

theorem witness_FailedCommandLeavesNoResult : ∃ t, perform (.cmd 0x13) poor = .next t ∧ errField t.status ≠ 0 :=
  ⟨_, rfl, by decide⟩

theorem witness_RportIsThePortAccessorsResult :
    (∃ t, exec .maPort full4 = .next t ∧ t.rport = 0xAEAF) ∧ (∃ t, exec .maPort poor = .next t ∧ errField t.status ≠ 0) ∧
    Instr.maAddr ≠ .maPort ∧ Instr.maAddr ≠ .xmaPort := ⟨⟨_, rfl, by decide⟩, ⟨_, rfl, by decide⟩, by decide, by decide⟩

theorem witness_OutLengthsACommandLeaves :
    (∃ t, exec (.tlvEnc 1) full4 = .next t) ∧ (∃ t, exec .xmaEnc full6 = .next t) ∧ (∃ t, exec .xmaAddr full6 = .next t) ∧
    (∃ t, exec .xmaPort full6 = .next t) := ⟨⟨_, rfl⟩, ⟨_, rfl⟩, ⟨_, rfl⟩, ⟨_, rfl⟩⟩

theorem witness_FirstErrorReachedIsReported :
    (IsXor .xmaAddr ∧ ¬ GoodHeader poor.mem.hdr) ∧
    (GoodHeader (loaded (some hx) (some []) [0, 0, 0] [] 0).mem.hdr ∧
      (loaded (some hx) (some []) [0, 0, 0] [] 0).mem.addr.length ≠ 4 ∧
      (loaded (some hx) (some []) [0, 0, 0] [] 0).mem.addr.length ≠ 16) ∧
    State.reset.mem.attr = none ∧ (poor.mem.attr = some [] ∧ ¬ ValidBytes []) :=
  ⟨⟨trivial, bad_absent⟩, ⟨good_hx, by decide, by decide⟩, rfl, rfl, invalid_empty⟩

theorem witness_TlvEncFramesVal :
    (loaded none none [] (List.replicate 65535 0xAB) 0).mem.val.length ≤ 65535 ∧ State.reset.mem.val.length ≤ 65535 :=
  ⟨(List.length_replicate (n := 65535) (a := 0xAB#8)).le, by decide⟩

theorem witness_FramedAttributeLaws : full4.mem.val.length ≤ 65535 ∧ ∃ t, exec (.tlvEnc 7) full4 = .next t :=
  ⟨by decide, _, rfl⟩

theorem witness_RoundUp4IsTheLeastMultiple : (8 : Nat) % 4 = 0 ∧ (5 : Nat) ≤ 8 ∧ (65535 : Nat) ≤ 65535 := by decide

theorem witness_FamilySelectorIsByLength : (17 : Nat) ≠ 4 ∧ (17 : Nat) ≠ 16 ∧ (0 : Nat) ≠ 4 ∧ (0 : Nat) ≠ 16 := by decide

theorem witness_MaEncBuildsTheValue :
    full4.mem.addr.length = 4 ∧ full6.mem.addr.length = 16 ∧ poor.mem.addr.length ≠ 4 ∧ poor.mem.addr.length ≠ 16 := by decide

theorem witness_MaValReportsValidate :
    State.reset.mem.attr = none ∧ (full4.mem.attr = some attr4 ∧ ValidBytes attr4) ∧
    (poor.mem.attr = some [] ∧ ¬ ValidBytes []) ∧ ValidBytes [0x00, 0x07, 0x12, 0x34] ∧ ¬ ValidBytes [0x01, 0x01, 0x00, 0x50] :=
  ⟨rfl, ⟨rfl, valid_attr4⟩, ⟨rfl, invalid_empty⟩, valid_four, invalid_reserved⟩

theorem witness_MaPortReadsThePort :
    State.reset.mem.attr = none ∧ (full6.mem.attr = some attr6 ∧ ValidBytes attr6) ∧ ValidBytes [0x00, 0x07, 0x12, 0x34] ∧
    ¬ ValidBytes [0, 0, 0, 0, 0] := ⟨rfl, ⟨rfl, valid_attr6⟩, valid_four, invalid_five⟩

theorem witness_MaAddrReturnsTheAddress :
    State.reset.mem.attr = none ∧ (full4.mem.attr = some attr4 ∧ ValidBytes attr4 ∧ TagFitsLength attr4) ∧
    (full6.mem.attr = some attr6 ∧ ValidBytes attr6 ∧ TagFitsLength attr6) ∧
    ¬ (ValidBytes [0x00, 0x07, 0x12, 0x34] ∧ TagFitsLength [0x00, 0x07, 0x12, 0x34]) :=
  ⟨rfl, ⟨rfl, valid_attr4, fits_attr4⟩, ⟨rfl, valid_attr6, fits_attr6⟩, not_fits_four⟩

theorem witness_PlainRoundTrip : full4.mem.addr.length = 4 ∧ full6.mem.addr.length = 16 := by decide

theorem witness_PortIsTruncatedSilently :
    (-2147483648 : Int) ≤ -2147483648 ∧ (2147483647 : Int) ≤ 2147483647 ∧ full4.mem.addr.length = 4 ∧
    full6.mem.addr.length = 16 := by decide

theorem witness_FramingAMappedAddressAddsNoPadding : full4.mem.addr.length = 4 ∧ full6.mem.addr.length = 16 := by decide

theorem witness_XmaChkReportsTheHeader :
    GoodHeader full4.mem.hdr ∧ GoodHeader (some (0x3F :: List.replicate 19 0)) ∧ ¬ GoodHeader poor.mem.hdr ∧
    ¬ GoodHeader (some badHeader) := ⟨good_hx, good_3F, bad_absent, bad_top_bit⟩

theorem witness_XmaEncBuildsTheValue :
    ¬ GoodHeader poor.mem.hdr ∧
    (GoodHeader (loaded (some hx) none [0, 0, 0] [] 0).mem.hdr ∧ (loaded (some hx) none [0, 0, 0] [] 0).mem.addr.length ≠ 4 ∧
      (loaded (some hx) none [0, 0, 0] [] 0).mem.addr.length ≠ 16) ∧
    (full4.mem.hdr = some hx ∧ GoodHeader full4.mem.hdr ∧ full4.mem.addr.length = 4) ∧
    (full6.mem.hdr = some hx ∧ GoodHeader full6.mem.hdr ∧ full6.mem.addr.length = 16) :=
  ⟨bad_absent, ⟨good_hx, by decide, by decide⟩, ⟨rfl, good_hx, rfl⟩, ⟨rfl, good_hx, rfl⟩⟩

theorem witness_XmaPortRecoversThePort :
    ¬ GoodHeader poor.mem.hdr ∧ State.reset.mem.attr = none ∧
    (GoodHeader (some hx) ∧ ¬ ValidBytes [0, 0, 0, 0, 0]) ∧
    (full4.mem.hdr = some hx ∧ GoodHeader full4.mem.hdr ∧ full4.mem.attr = some attr4 ∧ ValidBytes attr4) :=
  ⟨bad_absent, rfl, ⟨good_hx, invalid_five⟩, rfl, good_hx, rfl, valid_attr4⟩

theorem witness_XmaAddrRecoversTheAddress :
    ¬ GoodHeader poor.mem.hdr ∧ State.reset.mem.attr = none ∧
    (GoodHeader (some hx) ∧ ¬ (ValidBytes [0x00, 0x07, 0x12, 0x34] ∧ TagFitsLength [0x00, 0x07, 0x12, 0x34])) ∧
    (full4.mem.hdr = some hx ∧ GoodHeader full4.mem.hdr ∧ full4.mem.attr = some attr4 ∧ ValidBytes attr4 ∧ TagFitsLength attr4) ∧
    (full6.mem.hdr = some hx ∧ GoodHeader full6.mem.hdr ∧ full6.mem.attr = some attr6 ∧ ValidBytes attr6 ∧ TagFitsLength attr6) :=
  ⟨bad_absent, rfl, ⟨good_hx, not_fits_four⟩, ⟨rfl, good_hx, rfl, valid_attr4, fits_attr4⟩, rfl, good_hx, rfl, valid_attr6, fits_attr6⟩

theorem witness_XorRoundTrip :
    (GoodHeader full4.mem.hdr ∧ full4.mem.addr.length = 4) ∧ (GoodHeader full6.mem.hdr ∧ full6.mem.addr.length = 16) :=
  ⟨⟨good_hx, rfl⟩, good_hx, rfl⟩

theorem witness_XorCodecIsPlainCodecUnderTheKey :
    (full4.mem.hdr = some hx ∧ GoodHeader full4.mem.hdr ∧ full4.mem.addr.length = 4 ∧ full4.mem.attr = some attr4 ∧
      attr4.length = 8) ∧
    (full6.mem.hdr = some hx ∧ GoodHeader full6.mem.hdr ∧ full6.mem.addr.length = 16 ∧ full6.mem.attr = some attr6 ∧
      attr6.length = 20) := ⟨⟨rfl, good_hx, rfl, rfl, rfl⟩, rfl, good_hx, rfl, rfl, rfl⟩

theorem witness_XorLanesAreIndependent :
    ∃ t t', full6.mem.hdr = some hx ∧ (15 : Nat) < full6.mem.addr.length ∧ full6.mem.addr[15]? = v6[15]? ∧
      exec .xmaEnc full6 = .next t ∧ exec .xmaEnc { full6 with port := 1 } = .next t' ∧ errField t.status = 0 ∧
      errField t'.status = 0 := ⟨_, _, rfl, by decide, rfl, rfl, rfl, by decide, by decide⟩

theorem witness_MemWriteSetsThoseBytesOnly :
    2 + [0xAA#8, 0xBB#8].length ≤ [0x00#8, 0x01#8, 0x02#8, 0x03#8].length ∧
    [0x00#8, 0x01#8, 0x02#8, 0x03#8].length < 3 + [0xAA#8, 0xBB#8].length := by decide

end Sys2Proof.Tests
end

section
/-!
SUPPORT. What each command's calculation answers, as a whole result: the inversion of the nine calculations. The bound on OUT that
keeps the memory form follows from them.
-/

namespace Sys2Proof.Machine

/-- An address that has a family has that family's length (R80, R82). -/
theorem length_of_addressFamily {addr : Bytes} {f : Family} (h : addressFamily addr = .ok f) : addr.length = f.addrLen := by
  unfold addressFamily at h
  split at h
  · rename_i g hg
    cases h
    exact familyOfLength_some.mp hg
  · simp [raised] at h

/-- Bytes that pass `TagLenCheck` after `Validate` carry a family's tag and have the length of that family's value (R86). -/
theorem tagLenCheck_ok {a : Bytes} {f : Family} (ha : 4 ≤ a.length) (h : tagLenCheck a = .ok f) :
    a[1]? = some f.tag ∧ a.length = 4 + f.addrLen := by
  rcases tagLenCheck_of a ha with ⟨g, htag, hlen, hg⟩ | ⟨-, hraised⟩
  · rw [hg] at h
    cases h
    exact ⟨htag, hlen⟩
  · simp [hraised, raised] at h

/-- A read of a whole buffer answers its bytes. -/
theorem memRead_whole (b : Bytes) : memRead b 0 b.length = .ok b := by
  rw [memRead_inside (by omega)]
  simp

/-- A read from offset 4 to the end answers all bytes from offset 4 on: the address field of R81. -/
theorem memRead_from4 {b : Bytes} (h : 4 ≤ b.length) : memRead b 4 (b.length - 4) = .ok (b.drop 4) := by
  rw [memRead_inside (by omega), List.take_of_length_le (by simp)]

@[simp] theorem valueLayout_length (f : Family) (portField addrField : Bytes) :
    (valueLayout f portField addrField).length = 2 + portField.length + addrField.length := by
  simp [valueLayout]
  omega

theorem Family.addrLen_le (f : Family) : f.addrLen ≤ 16 := by cases f <;> decide

/-- What TLV.ENC answers (R70, R72). -/
theorem tlvEncCalc_ok {type : Half} {val : Bytes} {r : Result} (h : tlvEncCalc type val = .ok r) :
    val.length ≤ 65535 ∧
      r = ⟨bytesBe16 type ++ bytesBe16 (BitVec.ofNat 16 val.length) ++ val ++ zeros (roundUp4 val.length - val.length), 0⟩ := by
  obtain ⟨out, hframe, hr⟩ := calc_bind_ok.mp h
  obtain ⟨len, hlen, hrest⟩ := calc_bind_ok.mp hframe
  obtain ⟨value, hvalue, hout⟩ := calc_bind_ok.mp hrest
  obtain ⟨hle, rfl⟩ := lengthField_ok.mp hlen
  rw [memRead_whole] at hvalue
  cases hvalue; cases hout; cases hr
  exact ⟨hle, rfl⟩

/-- What MA.ENC answers (R82). -/
theorem maEncCalc_ok {addr : Bytes} {port : Word} {r : Result} (h : maEncCalc addr port = .ok r) :
    ∃ f : Family, addr.length = f.addrLen ∧ r = ⟨valueLayout f (bytesBe16 (portLow16 port)) addr, 0⟩ := by
  obtain ⟨f, hf, hrest⟩ := calc_bind_ok.mp h
  obtain ⟨address, haddress, hr⟩ := calc_bind_ok.mp hrest
  rw [memRead_whole] at haddress
  cases haddress; cases hr
  exact ⟨f, length_of_addressFamily hf, rfl⟩

/-- What MA.VAL answers (R84). -/
theorem maValCalc_ok {attr : Option Bytes} {r : Result} (h : maValCalc attr = .ok r) :
    ∃ a, validate attr = .ok a ∧ r = ⟨[], 0⟩ := by
  obtain ⟨a, ha, hr⟩ := calc_bind_ok.mp h
  cases hr
  exact ⟨a, ha, rfl⟩

/-- What MA.PORT answers (R85). -/
theorem maPortCalc_ok {attr : Option Bytes} {r : Result} (h : maPortCalc attr = .ok r) :
    ∃ a p, validate attr = .ok a ∧ readBe16 a 2 = .ok p ∧ r = ⟨[], p⟩ := by
  obtain ⟨a, ha, hrest⟩ := calc_bind_ok.mp h
  obtain ⟨p, hp, hr⟩ := calc_bind_ok.mp hrest
  cases hr
  exact ⟨a, p, ha, hp, rfl⟩

/-- What MA.ADDR answers (R87). -/
theorem maAddrCalc_ok {attr : Option Bytes} {r : Result} (h : maAddrCalc attr = .ok r) :
    ∃ (a : Bytes) (f : Family), validate attr = .ok a ∧ a[1]? = some f.tag ∧ a.length = 4 + f.addrLen ∧ r = ⟨a.drop 4, 0⟩ := by
  obtain ⟨a, ha, hrest⟩ := calc_bind_ok.mp h
  obtain ⟨f, hf, hrest⟩ := calc_bind_ok.mp hrest
  obtain ⟨address, haddress, hr⟩ := calc_bind_ok.mp hrest
  obtain ⟨-, hfour, -, -⟩ := validate_ok ha
  obtain ⟨htag, hlen⟩ := tagLenCheck_ok hfour hf
  rw [memRead_from4 hfour] at haddress
  cases haddress; cases hr
  exact ⟨a, f, ha, htag, hlen, rfl⟩

/-- What XMA.CHK answers (R102). -/
theorem xmaChkCalc_ok {hdr : Option Bytes} {r : Result} (h : xmaChkCalc hdr = .ok r) :
    ∃ hb, checkHeader hdr = .ok hb ∧ r = ⟨[], 0⟩ := by
  obtain ⟨hb, hhb, hr⟩ := calc_bind_ok.mp h
  cases hr
  exact ⟨hb, hhb, rfl⟩

/-- What XMA.ENC answers (R103). -/
theorem xmaEncCalc_ok {hdr : Option Bytes} {addr : Bytes} {port : Word} {r : Result}
    (h : xmaEncCalc hdr addr port = .ok r) :
    ∃ (hb : Bytes) (f : Family), checkHeader hdr = .ok hb ∧ addr.length = f.addrLen ∧
      r = ⟨valueLayout f (xorLanes (bytesBe16 (portLow16 port)) ((hb.drop 4).take 2))
        (xorLanes addr ((hb.drop 4).take addr.length)), 0⟩ := by
  obtain ⟨hb, hhb, hrest⟩ := calc_bind_ok.mp h
  obtain ⟨f, hf, hrest⟩ := calc_bind_ok.mp hrest
  obtain ⟨portKey, hportKey, hrest⟩ := calc_bind_ok.mp hrest
  obtain ⟨addrKey, haddrKey, hrest⟩ := calc_bind_ok.mp hrest
  obtain ⟨address, haddress, hr⟩ := calc_bind_ok.mp hrest
  obtain ⟨-, rfl⟩ := memRead_ok.mp hportKey
  obtain ⟨-, rfl⟩ := memRead_ok.mp haddrKey
  rw [memRead_whole] at haddress
  cases haddress; cases hr
  exact ⟨hb, f, hhb, length_of_addressFamily hf, rfl⟩

/-- What XMA.PORT answers (R104). -/
theorem xmaPortCalc_ok {hdr attr : Option Bytes} {r : Result} (h : xmaPortCalc hdr attr = .ok r) :
    ∃ hb a hi lo khi klo, checkHeader hdr = .ok hb ∧ validate attr = .ok a ∧
      a[2]? = some hi ∧ a[3]? = some lo ∧ hb[4]? = some khi ∧ hb[5]? = some klo ∧
      r = ⟨[], be16 (hi ^^^ khi) (lo ^^^ klo)⟩ := by
  obtain ⟨hb, hhb, hrest⟩ := calc_bind_ok.mp h
  obtain ⟨a, ha, hrest⟩ := calc_bind_ok.mp hrest
  obtain ⟨hi, hhi, hrest⟩ := calc_bind_ok.mp hrest
  obtain ⟨lo, hlo, hrest⟩ := calc_bind_ok.mp hrest
  obtain ⟨khi, hkhi, hrest⟩ := calc_bind_ok.mp hrest
  obtain ⟨klo, hklo, hr⟩ := calc_bind_ok.mp hrest
  cases hr
  exact ⟨hb, a, hi, lo, khi, klo, hhb, ha, byteAt_ok.mp hhi, byteAt_ok.mp hlo, byteAt_ok.mp hkhi, byteAt_ok.mp hklo, rfl⟩

/-- What XMA.ADDR answers (R105). -/
theorem xmaAddrCalc_ok {hdr attr : Option Bytes} {r : Result} (h : xmaAddrCalc hdr attr = .ok r) :
    ∃ (hb a : Bytes) (f : Family), checkHeader hdr = .ok hb ∧ validate attr = .ok a ∧ a[1]? = some f.tag ∧
      a.length = 4 + f.addrLen ∧ r = ⟨xorLanes (a.drop 4) ((hb.drop 4).take (a.length - 4)), 0⟩ := by
  obtain ⟨hb, hhb, hrest⟩ := calc_bind_ok.mp h
  obtain ⟨a, ha, hrest⟩ := calc_bind_ok.mp hrest
  obtain ⟨f, hf, hrest⟩ := calc_bind_ok.mp hrest
  obtain ⟨field, hfield, hrest⟩ := calc_bind_ok.mp hrest
  obtain ⟨key, hkey, hr⟩ := calc_bind_ok.mp hrest
  obtain ⟨-, hfour, -, -⟩ := validate_ok ha
  obtain ⟨htag, hlen⟩ := tagLenCheck_ok hfour hf
  rw [memRead_from4 hfour] at hfield
  obtain ⟨-, rfl⟩ := memRead_ok.mp hkey
  cases hfield; cases hr
  exact ⟨hb, a, f, hhb, ha, htag, hlen, rfl⟩

end Sys2Proof.Machine
end

section
/-!
SUPPORT. Every command, host action and step keeps the canonical form of memory (R5, R16), and with it O5.
-/

namespace Sys2Proof.Machine

/-- The longest output a command can answer is R5's output capacity: a framed value of 65535 bytes. -/
theorem calcOf_out_length_le {i : Instr} {s : State} {r : Result} (h : calcOf i s = .ok r) :
    r.out.length ≤ Buffer.out.capacity := by
  change r.out.length ≤ 65540
  cases i with
  | tlvEnc type =>
    obtain ⟨hval, rfl⟩ := tlvEncCalc_ok h
    have hmod := roundUp4_mod s.mem.val.length
    have hup := roundUp4_lt s.mem.val.length
    simp only [List.length_append, bytesBe16_length, zeros_length]
    omega
  | maEnc =>
    obtain ⟨f, haddr, rfl⟩ := maEncCalc_ok h
    have hf := f.addrLen_le
    simp only [valueLayout_length, bytesBe16_length]
    omega
  | maVal =>
    obtain ⟨a, -, rfl⟩ := maValCalc_ok h
    exact Nat.zero_le _
  | maPort =>
    obtain ⟨a, p, -, -, rfl⟩ := maPortCalc_ok h
    exact Nat.zero_le _
  | maAddr =>
    obtain ⟨a, f, -, -, ha, rfl⟩ := maAddrCalc_ok h
    have hf := f.addrLen_le
    simp only [List.length_drop]
    omega
  | xmaChk =>
    obtain ⟨hb, -, rfl⟩ := xmaChkCalc_ok h
    exact Nat.zero_le _
  | xmaEnc =>
    obtain ⟨hb, f, -, haddr, rfl⟩ := xmaEncCalc_ok h
    have hf := f.addrLen_le
    simp only [valueLayout_length, xorLanes_length, bytesBe16_length]
    omega
  | xmaPort =>
    obtain ⟨hb, a, hi, lo, khi, klo, -, -, -, -, -, -, rfl⟩ := xmaPortCalc_ok h
    exact Nat.zero_le _
  | xmaAddr =>
    obtain ⟨hb, a, f, -, -, -, ha, rfl⟩ := xmaAddrCalc_ok h
    have hf := f.addrLen_le
    simp only [xorLanes_length, List.length_drop]
    omega

/-- Writing the result state stores into OUT and into no other buffer (R22). -/
theorem writeResults_mem (err : BitVec 3) (out : Bytes) (port : Half) (s : State) :
    (writeResults err out port s).mem = s.mem.store out .out := rfl

/-- Writing the result state with an output within capacity keeps the form. -/
theorem writeResults_wf {err : BitVec 3} {out : Bytes} {port : Half} {s : State} (hs : s.mem.wf = true)
    (hout : out.length ≤ Buffer.out.capacity) : (writeResults err out port s).mem.wf = true := by
  rw [writeResults_mem]
  exact Memory.store_wf hs hout

/-- A write of CMD keeps the form, whatever the word. -/
theorem hostCmd_wf {w : Word} {s t : State} (hs : s.mem.wf = true) (h : hostCmd w s = .next t) : t.mem.wf = true := by
  rcases hostCmd_next h with ⟨i, r, -, hr, rfl⟩ | ⟨e, rfl⟩
  · exact writeResults_wf hs (calcOf_out_length_le hr)
  · exact writeResults_wf hs (Nat.zero_le _)

/-- Every host action keeps the form. -/
theorem perform_wf {a : HostAction} {s t : State} (hs : s.mem.wf = true) (h : perform a s = .next t) : t.mem.wf = true := by
  rcases perform_next h with ⟨w, -, hcmd⟩ | ⟨b, bs, -, hfits, rfl⟩ | ⟨b, m, hm, rfl⟩ | ⟨p, rfl⟩ | ⟨as, rfl⟩
  · exact hostCmd_wf hs hcmd
  · exact Memory.store_wf hs hfits
  · exact Memory.makeAbsent_wf hs hm
  · exact hs
  · exact hs

/-- Every step keeps the form. -/
theorem step_wf {s t : State} (hs : s.mem.wf = true) (h : step s = .next t) : t.mem.wf = true := by
  rcases step_next h with ⟨-, rfl⟩ | ⟨rest, -, rfl⟩ | ⟨a, rest, -, ha⟩
  · exact hs
  · rw [resetBlock_mem]
    exact Memory.reset_wf
  · exact perform_wf (s := { s with agenda := rest }) hs ha

end Sys2Proof.Machine

namespace Sys2Proof.Proofs

/-- Settles O5: a command's output fits OUT, a load fits its buffer, and no other action makes a buffer longer. -/
theorem stepKeepsMemoryForm : Obligations.StepKeepsMemoryForm := by
  unfold Obligations.StepKeepsMemoryForm
  intro s t hs hstep
  exact Machine.step_wf hs hstep

end Sys2Proof.Proofs
end

section
/-!
SUPPORT. What a command writes, as one write of the result state: the frame of every command (R21), the value of STATUS (R15, R125)
and the form of RPORT and OUT (R14, R19). With them O22 and O31.
-/

namespace Sys2Proof.Machine

open Sys2Proof.Claims

/-- The code of an error kind is one of 1 to 4 (R120). -/
theorem ErrorKind.code_range (e : ErrorKind) : 1 ≤ e.code.toNat ∧ e.code.toNat ≤ 4 := by cases e <;> decide

/-- STATUS after an error kind, as R125 writes it. -/
theorem statusWord_code (e : ErrorKind) : statusWord e.code = BitVec.ofNat 32 (0x100 + e.code.toNat) := by
  cases e <;> rfl

/-- DONE is set in every STATUS a command writes (R15). -/
@[simp] theorem doneField_statusWord (err : BitVec 3) : doneField (statusWord err) = true := by
  simp [doneField, statusWord]

@[simp] theorem errField_success : errField 0x00000100#32 = 0 := by decide

/-- A 16-bit port result zero-extends to a word below 65536 (R14). -/
theorem toNat_rport_lt (port : Half) : (port.setWidth 32).toNat < 65536 := by
  rw [BitVec.toNat_setWidth_of_le (by decide)]
  exact port.isLt

/-- A command that answers a next state wrote the result state, and nothing else. -/
theorem exec_writesResults {i : Instr} {s t : State} (h : exec i s = .next t) :
    ∃ err out port, t = writeResults err out port s := by
  rcases exec_next h with ⟨r, -, rfl⟩ | ⟨e, -, rfl⟩
  · exact ⟨okCode, r.out, r.port, rfl⟩
  · exact ⟨e.code, [], 0, rfl⟩

/-- So did a CMD write, of an illegal command word too (R55, R125). -/
theorem hostCmd_writesResults {w : Word} {s t : State} (h : hostCmd w s = .next t) :
    ∃ err out port, t = writeResults err out port s := by
  rcases hostCmd_next h with ⟨i, r, -, -, rfl⟩ | ⟨e, rfl⟩
  · exact ⟨okCode, r.out, r.port, rfl⟩
  · exact ⟨e.code, [], 0, rfl⟩

/-- The frame of a write of the result state (R21, R22). -/
theorem writeResults_frame (err : BitVec 3) (out : Bytes) (port : Half) (s : State) :
    OutsideResultsUnchanged s (writeResults err out port s) := by
  refine ⟨⟨rfl, rfl, rfl, rfl, rfl⟩, rfl, rfl, fun b off hb => ?_⟩
  simp only [Memory.byte?, writeResults_mem, fetch_store_other s.mem out hb]

/-- Every address is a whole number of 4-byte groups (R80). -/
theorem Family.addrLen_mod (f : Family) : f.addrLen % 4 = 0 := by cases f <;> rfl

/-- OUT after a success is a whole number of 4-byte groups (R19): TLV.ENC pads, the value header is 4 bytes, an address is 4 or 16
bytes. -/
theorem calcOf_out_length_mod {i : Instr} {s : State} {r : Result} (h : calcOf i s = .ok r) : r.out.length % 4 = 0 := by
  cases i with
  | tlvEnc type =>
    obtain ⟨-, rfl⟩ := tlvEncCalc_ok h
    have hmod := roundUp4_mod s.mem.val.length
    have hle := le_roundUp4 s.mem.val.length
    simp only [List.length_append, bytesBe16_length, zeros_length]
    omega
  | maEnc =>
    obtain ⟨f, haddr, rfl⟩ := maEncCalc_ok h
    have hf := f.addrLen_mod
    simp only [valueLayout_length, bytesBe16_length]
    omega
  | maVal =>
    obtain ⟨a, -, rfl⟩ := maValCalc_ok h
    rfl
  | maPort =>
    obtain ⟨a, p, -, -, rfl⟩ := maPortCalc_ok h
    rfl
  | maAddr =>
    obtain ⟨a, f, -, -, ha, rfl⟩ := maAddrCalc_ok h
    have hf := f.addrLen_mod
    simp only [List.length_drop]
    omega
  | xmaChk =>
    obtain ⟨hb, -, rfl⟩ := xmaChkCalc_ok h
    rfl
  | xmaEnc =>
    obtain ⟨hb, f, hhdr, haddr, rfl⟩ := xmaEncCalc_ok h
    obtain ⟨-, hlen, -⟩ := checkHeader_ok hhdr
    have hle := f.addrLen_le
    have hf := f.addrLen_mod
    simp only [valueLayout_length, xorLanes_length, bytesBe16_length, List.length_take, List.length_drop]
    omega
  | xmaPort =>
    obtain ⟨hb, a, hi, lo, khi, klo, -, -, -, -, -, -, rfl⟩ := xmaPortCalc_ok h
    rfl
  | xmaAddr =>
    obtain ⟨hb, a, f, hhdr, -, -, ha, rfl⟩ := xmaAddrCalc_ok h
    obtain ⟨-, hlen, -⟩ := checkHeader_ok hhdr
    have hle := f.addrLen_le
    have hf := f.addrLen_mod
    simp only [xorLanes_length, List.length_take, List.length_drop]
    omega

/-- Only the two port accessors answer a port (R14). -/
theorem calcOf_port_eq_zero {i : Instr} {s : State} {r : Result} (h : calcOf i s = .ok r) (hma : i ≠ .maPort)
    (hxma : i ≠ .xmaPort) : r.port = 0 := by
  cases i with
  | tlvEnc type =>
    obtain ⟨-, rfl⟩ := tlvEncCalc_ok h
    rfl
  | maEnc =>
    obtain ⟨f, -, rfl⟩ := maEncCalc_ok h
    rfl
  | maVal =>
    obtain ⟨a, -, rfl⟩ := maValCalc_ok h
    rfl
  | maPort => exact absurd rfl hma
  | maAddr =>
    obtain ⟨a, f, -, -, -, rfl⟩ := maAddrCalc_ok h
    rfl
  | xmaChk =>
    obtain ⟨hb, -, rfl⟩ := xmaChkCalc_ok h
    rfl
  | xmaEnc =>
    obtain ⟨hb, f, -, -, rfl⟩ := xmaEncCalc_ok h
    rfl
  | xmaPort => exact absurd rfl hxma
  | xmaAddr =>
    obtain ⟨hb, a, f, -, -, -, -, rfl⟩ := xmaAddrCalc_ok h
    rfl

/-- No command answers both a port and bytes: the port accessors answer no bytes (R85, R104). -/
theorem calcOf_port_eq_zero_or_out_eq_nil {i : Instr} {s : State} {r : Result} (h : calcOf i s = .ok r) :
    r.port = 0 ∨ r.out = [] := by
  by_cases hma : i = .maPort
  · subst hma
    obtain ⟨a, p, -, -, rfl⟩ := maPortCalc_ok h
    exact .inr rfl
  by_cases hxma : i = .xmaPort
  · subst hxma
    obtain ⟨hb, a, hi, lo, khi, klo, -, -, -, -, -, -, rfl⟩ := xmaPortCalc_ok h
    exact .inr rfl
  exact .inl (calcOf_port_eq_zero h hma hxma)

end Sys2Proof.Machine

namespace Sys2Proof.Proofs

open Sys2Proof.Machine

/-- Settles O22: a command and a CMD write do nothing but write the result state, and that write stores into OUT alone. -/
theorem commandsLeaveOperands : Obligations.CommandsLeaveOperands := by
  unfold Obligations.CommandsLeaveOperands
  constructor
  · intro i s t hexec
    obtain ⟨err, out, port, rfl⟩ := exec_writesResults hexec
    exact writeResults_frame err out port s
  · intro w s t hcmd
    obtain ⟨err, out, port, rfl⟩ := hostCmd_writesResults hcmd
    exact writeResults_frame err out port s

/-- Settles O31: a success leaves its calculation's port, zero-extended, and ERR 0; a failure leaves RPORT 0. -/
theorem rportIsThePortAccessorsResult : Obligations.RportIsThePortAccessorsResult := by
  unfold Obligations.RportIsThePortAccessorsResult
  intro i s t hexec
  rcases exec_next hexec with ⟨r, hr, rfl⟩ | ⟨e, -, rfl⟩
  · rw [succeed_rport, succeed_status]
    refine ⟨Nat.le_of_lt_succ (toNat_rport_lt r.port), fun herr => absurd errField_success herr, fun hma hxma => ?_⟩
    rw [calcOf_port_eq_zero hr hma hxma]
    rfl
  · exact ⟨Nat.zero_le _, fun _ => rfl, fun _ _ => rfl⟩

end Sys2Proof.Proofs
end

section
/-!
SUPPORT. The host actions other than a CMD write leave the result state (R22, R142). With the frame of the commands it gives the
invariant of every step. O20, O28, O3 and O4.
-/

namespace Sys2Proof.Machine

open Sys2Proof.Claims

/-- A store into another buffer leaves OUT. -/
theorem store_out (m : Memory) (bs : Bytes) {b : Buffer} (hb : b ≠ .out) : (m.store bs b).out = m.out :=
  Option.some.inj (fetch_store_other m bs hb.symm)

/-- Making a buffer absent leaves OUT, which has no such value (R17). -/
theorem makeAbsent_out {m m' : Memory} {b : Buffer} (h : m.makeAbsent b = some m') : m'.out = m.out := by
  obtain ⟨habsent, -, hother⟩ := makeAbsent_spec h
  have hb : Buffer.out ≠ b := by rintro rfl; cases habsent
  exact Option.some.inj (hother .out hb)

/-- A host action that is not a CMD write leaves STATUS, RPORT and OUT (R22, R142). -/
theorem perform_sameResults {a : HostAction} {s t : State} (ha : ∀ w, a ≠ .cmd w) (h : perform a s = .next t) :
    SameResults t s := by
  rcases perform_next h with ⟨w, rfl, -⟩ | ⟨b, bs, hb, -, rfl⟩ | ⟨b, m, hm, rfl⟩ | ⟨p, rfl⟩ | ⟨as, rfl⟩
  · exact absurd rfl (ha w)
  · exact ⟨rfl, rfl, store_out s.mem bs hb⟩
  · exact ⟨rfl, rfl, makeAbsent_out hm⟩
  · exact ⟨rfl, rfl, rfl⟩
  · exact ⟨rfl, rfl, rfl⟩

/-- A host action writes CMD or leaves the result state. -/
theorem perform_cmd_or_sameResults {a : HostAction} {s t : State} (h : perform a s = .next t) :
    (∃ w, hostCmd w s = .next t) ∨ SameResults t s := by
  by_cases ha : ∃ w, a = .cmd w
  · obtain ⟨w, rfl⟩ := ha
    exact .inl ⟨w, h⟩
  · exact .inr (perform_sameResults (fun w hw => ha ⟨w, hw⟩) h)

/-- After a CMD write DONE is set (R15). -/
theorem hostCmd_done {w : Word} {s t : State} (h : hostCmd w s = .next t) : doneField t.status = true := by
  obtain ⟨err, out, port, rfl⟩ := hostCmd_writesResults h
  exact doneField_statusWord err

/-- The result state is one that reset or a command leaves: the second half of the invariant. -/
def State.ResultsLegal (s : State) : Prop := s.ResultsReset ∨ s.ResultsOk ∨ s.ResultsFailed

theorem State.inv_iff (s : State) : s.Inv ↔ s.mem.wf = true ∧ s.ResultsLegal := Iff.rfl

/-- Whether the result state is legal rests on STATUS, RPORT and OUT alone. -/
theorem State.ResultsLegal.of_sameResults {s t : State} (h : SameResults t s) (hs : s.ResultsLegal) : t.ResultsLegal := by
  obtain ⟨hstatus, hrport, hout⟩ := h
  simpa only [State.ResultsLegal, State.ResultsReset, State.ResultsOk, State.ResultsFailed, hstatus, hrport, hout] using hs

/-- A success leaves the result state R125 gives it, with what its calculation answered. -/
theorem succeed_resultsOk {i : Instr} {s : State} {r : Result} (h : calcOf i s = .ok r) :
    (succeed r.out r.port s).ResultsOk := by
  refine ⟨rfl, toNat_rport_lt r.port, calcOf_out_length_mod h, ?_⟩
  rcases calcOf_port_eq_zero_or_out_eq_nil h with hport | hout
  · left
    rw [succeed_rport, hport]
    rfl
  · exact .inr hout

/-- A failure leaves the result state R125 gives it. -/
theorem raiseError_resultsFailed (e : ErrorKind) (s : State) : (raiseError e s).ResultsFailed :=
  ⟨⟨e.code.toNat, e.code_range.1, e.code_range.2, statusWord_code e⟩, rfl, rfl⟩

/-- After a CMD write the result state is a success's or a failure's. -/
theorem hostCmd_resultsLegal {w : Word} {s t : State} (h : hostCmd w s = .next t) : t.ResultsLegal := by
  rcases hostCmd_next h with ⟨i, r, -, hr, rfl⟩ | ⟨e, rfl⟩
  · exact .inr (.inl (succeed_resultsOk hr))
  · exact .inr (.inr (raiseError_resultsFailed e s))

/-- Every step keeps the result state legal. -/
theorem step_resultsLegal {s t : State} (hs : s.ResultsLegal) (h : step s = .next t) : t.ResultsLegal := by
  rcases step_next h with ⟨-, rfl⟩ | ⟨rest, -, rfl⟩ | ⟨a, rest, -, ha⟩
  · exact hs
  · exact .inl ⟨rfl, rfl, rfl⟩
  · rcases perform_cmd_or_sameResults ha with ⟨w, hcmd⟩ | hsame
    · exact hostCmd_resultsLegal hcmd
    · exact State.ResultsLegal.of_sameResults (s := s) hsame hs

end Sys2Proof.Machine

namespace Sys2Proof.Proofs

open Sys2Proof.Machine

/-- Settles O4: the capacities by `step_wf`, the result state by the end of each command and the frame of every other event. -/
theorem stepKeepsInv : Obligations.StepKeepsInv := by
  unfold Obligations.StepKeepsInv
  intro s t hs hstep
  obtain ⟨hwf, hresults⟩ := s.inv_iff.mp hs
  exact t.inv_iff.mpr ⟨step_wf hwf hstep, step_resultsLegal hresults hstep⟩

/-- Settles O3: every buffer is empty or absent, and the result state is reset's own. -/
theorem resetMeetsInv : Obligations.ResetMeetsInv := by
  unfold Obligations.ResetMeetsInv
  exact State.reset.inv_iff.mpr ⟨Memory.reset_wf, .inl ⟨rfl, rfl, rfl⟩⟩

/-- Settles O20: a load is never of OUT, OUT is never made absent, and the other actions write PORT or an answer. -/
theorem hostActionsLeaveResults : Obligations.HostActionsLeaveResults := by
  unfold Obligations.HostActionsLeaveResults
  intro a s t ha hperform
  exact perform_sameResults ha hperform

/-- Settles O28: each event of the agenda sets DONE (a CMD write), leaves STATUS (any other host action) or clears it (reset). -/
theorem onlyResetClearsDone : Obligations.OnlyResetClearsDone := by
  unfold Obligations.OnlyResetClearsDone
  refine ⟨fun w s t hcmd => hostCmd_done hcmd, fun s t hnoReset hdone hstep => ?_, fun s t rest hreset hstep => ?_⟩
  · rcases step_next hstep with ⟨-, rfl⟩ | ⟨rest, hreset, -⟩ | ⟨a, rest, -, ha⟩
    · exact hdone
    · exact absurd hreset (hnoReset rest)
    · rcases perform_cmd_or_sameResults ha with ⟨w, hcmd⟩ | ⟨hstatus, -, -⟩
      · exact hostCmd_done hcmd
      · rw [hstatus]
        exact hdone
  · rcases step_next hstep with ⟨hnil, -⟩ | ⟨rest', -, rfl⟩ | ⟨a, rest', haction, -⟩
    · simp [hnil] at hreset
    · rw [resetBlock_status]
      decide
    · simp [haction] at hreset

end Sys2Proof.Proofs
end

section
/-!
SUPPORT. Which commands stop on an absent HDR, an absent ATTR or an address of no family, what TLV.ENC answers, and the two ends of
a command as the statements write them. O1.
-/

namespace Sys2Proof.Machine

open Sys2Proof.Claims

/-- `bytes_be16` in the numbers of the statements (R7). -/
theorem bytesBe16_eq (v : Half) : bytesBe16 v = bigEndian2 v.toNat := by
  rw [bytesBe16, bigEndian2, highByte_eq, lowByte_eq]

/-- `succeed` leaves the state the statements write for a success (R125). -/
theorem succeed_eq_succeeded (out : Bytes) (port : Half) (s : State) : succeed out port s = succeeded s out port.toNat := by
  have hport : port.setWidth 32 = BitVec.ofNat 32 port.toNat := by simp
  simp only [succeed, writeResults, succeeded, hport]
  rfl

/-- `raiseError` leaves the state the statements write for a failure (R125). -/
theorem raiseError_eq_failed (e : ErrorKind) (s : State) : raiseError e s = failed s e.code.toNat := by
  simp only [raiseError, writeResults, failed, statusWord_code]
  rfl

/-- A command whose calculation answers a result succeeds with it. -/
theorem exec_of_ok {i : Instr} {s : State} {r : Result} (h : calcOf i s = .ok r) :
    exec i s = .next (succeeded s r.out r.port.toNat) := by
  rw [exec_eq_finish, h, ← succeed_eq_succeeded]
  rfl

/-- A command whose calculation raises an error kind fails with its code. -/
theorem exec_of_raised {i : Instr} {s : State} {e : ErrorKind} (h : calcOf i s = raised e) :
    exec i s = .next (failed s e.code.toNat) := by
  rw [exec_eq_finish, h, ← raiseError_eq_failed]
  rfl

/-- The XOR commands check HDR first, and an absent one is InvalidInput (R100, R126). -/
theorem calcOf_of_hdr_absent {i : Instr} {s : State} (hi : IsXor i) (h : s.mem.hdr = none) :
    calcOf i s = raised .invalidInput := by
  cases i with
  | xmaChk | xmaEnc | xmaPort | xmaAddr =>
    simp only [calcOf, h]
    rfl
  | tlvEnc _ | maEnc | maVal | maPort | maAddr => exact hi.elim

/-- The accessors of the plain codec validate ATTR first, and an absent one is InvalidInput (R83). -/
theorem calcOf_of_attr_absent {i : Instr} {s : State} (hi : i = .maVal ∨ i = .maPort ∨ i = .maAddr)
    (h : s.mem.attr = none) : calcOf i s = raised .invalidInput := by
  rcases hi with rfl | rfl | rfl
  all_goals
    simp only [calcOf, h]
    rfl

/-- MA.ENC of an address of another length than 4 and 16 is UnsupportedAddressFamily (R82). -/
theorem maEncCalc_other {addr : Bytes} (port : Word) (h4 : addr.length ≠ 4) (h16 : addr.length ≠ 16) :
    maEncCalc addr port = raised .unsupportedAddressFamily := by
  rw [maEncCalc, addressFamily_other h4 h16]
  rfl

/-- TLV.ENC frames every value that the length field can count (R70, R72). -/
theorem tlvEncCalc_inside (type : Half) {val : Bytes} (h : val.length ≤ 65535) :
    tlvEncCalc type val =
      .ok ⟨bytesBe16 type ++ bytesBe16 (BitVec.ofNat 16 val.length) ++ val ++ zeros (roundUp4 val.length - val.length), 0⟩ := by
  rw [tlvEncCalc, tlvFrame, lengthField_ok.mpr ⟨h, rfl⟩, memRead_whole]
  rfl

end Sys2Proof.Machine

namespace Sys2Proof.Proofs

open Sys2Proof.Machine Sys2Proof.Claims

/-- After reset the commands that read HDR or ATTR find it absent (R24). -/
theorem exec_reset_of_reader {i : Instr} (hi : i = .maVal ∨ i = .maPort ∨ i = .maAddr ∨ IsXor i) :
    exec i State.reset = .next (failed State.reset 1) := by
  have hcalc : calcOf i State.reset = raised .invalidInput := by
    rcases hi with h | h | h | h
    · exact calcOf_of_attr_absent (.inl h) rfl
    · exact calcOf_of_attr_absent (.inr (.inl h)) rfl
    · exact calcOf_of_attr_absent (.inr (.inr h)) rfl
    · exact calcOf_of_hdr_absent h rfl
  exact exec_of_raised hcalc

/-- After reset MA.ENC finds an address of 0 bytes (R24). -/
theorem exec_reset_maEnc : exec .maEnc State.reset = .next (failed State.reset 2) :=
  exec_of_raised (i := .maEnc) (maEncCalc_other _ (by decide) (by decide))

/-- After reset TLV.ENC frames the empty value: the type and the length 0 (R24). -/
theorem exec_reset_tlvEnc (type : Half) :
    exec (.tlvEnc type) State.reset = .next (succeeded State.reset (bigEndian2 type.toNat ++ [0x00#8, 0x00#8]) 0) := by
  have hcalc : calcOf (.tlvEnc type) State.reset = .ok ⟨bytesBe16 type ++ [0x00#8, 0x00#8], 0⟩ :=
    tlvEncCalc_inside type (Nat.zero_le _)
  rw [← bytesBe16_eq]
  exact exec_of_ok hcalc

/-- Settles O1: the items by the values of `State.reset`, the commands by the operands they find absent or empty there. -/
theorem resetLeavesTheStatedValues : Obligations.ResetLeavesTheStatedValues := by
  unfold Obligations.ResetLeavesTheStatedValues
  exact ⟨rfl, rfl, rfl, rfl, rfl, rfl, rfl, rfl, rfl, rfl, rfl, rfl, fun _ hi => exec_reset_of_reader hi,
    exec_reset_maEnc, exec_reset_tlvEnc⟩

end Sys2Proof.Proofs
end

section
/-!
SUPPORT. The rest of the agenda: no event of the host touches it (R39). O14.
-/

namespace Sys2Proof.Machine

/-- Every host action leaves the agenda. -/
theorem perform_agenda {a : HostAction} {s t : State} (h : perform a s = .next t) : t.agenda = s.agenda := by
  rcases perform_next h with ⟨w, -, hcmd⟩ | ⟨b, bs, -, -, rfl⟩ | ⟨b, m, -, rfl⟩ | ⟨p, rfl⟩ | ⟨as, rfl⟩
  · obtain ⟨err, out, port, rfl⟩ := hostCmd_writesResults hcmd
    exact writeResults_agenda s err out port
  all_goals rfl

/-- Every event leaves the agenda: reset forgets the block's items, and the agenda is the host's. -/
theorem performEvent_agenda {e : Event} {s t : State} (h : performEvent e s = .next t) : t.agenda = s.agenda := by
  cases e with
  | action a => exact perform_agenda h
  | reset =>
    cases h
    exact resetBlock_agenda s

theorem step_of_agenda_nil {s : State} (h : s.agenda = []) : step s = .next s := by
  simp only [step, nextEvent, h]

theorem step_of_agenda_cons {s : State} {e : Event} {rest : List Event} (h : s.agenda = e :: rest) :
    step s = performEvent e { s with agenda := rest } := by
  simp only [step, nextEvent, h]

end Sys2Proof.Machine

namespace Sys2Proof.Proofs

open Sys2Proof.Machine

/-- Settles O14: the step takes the first event off the agenda before it performs it, and performing it leaves the rest. -/
theorem stepConsumesTheFirstEvent : Obligations.StepConsumesTheFirstEvent := by
  unfold Obligations.StepConsumesTheFirstEvent
  refine ⟨fun s hnil => step_of_agenda_nil hnil, fun s e rest hcons => step_of_agenda_cons hcons,
    fun s t e rest hcons hstep => ?_⟩
  rw [step_of_agenda_cons hcons] at hstep
  exact performEvent_agenda hstep

end Sys2Proof.Proofs
end

section
/-!
SUPPORT. When each host action other than a CMD write takes place, and the refusal it has otherwise (R38). O15, O16, O17, O18 and
O19.
-/

namespace Sys2Proof.Machine

/-- HDR and ATTR can be made absent (R17). -/
theorem makeAbsent_of_canBeAbsent (m : Memory) {b : Buffer} (h : b.canBeAbsent = true) :
    ∃ m', m.makeAbsent b = some m' := by
  cases b with
  | hdr | attr => exact ⟨_, rfl⟩
  | addr | val | out => cases h

/-- `HostAbsent` of a buffer that has the value absent takes place. -/
theorem hostAbsent_of_some {b : Buffer} {s : State} {m : Memory} (h : s.mem.makeAbsent b = some m) :
    hostAbsent b s = .next { s with mem := m } := by
  rw [hostAbsent, h]

theorem portInRange_iff (v : Int) : portInRange v = true ↔ -2147483648 ≤ v ∧ v ≤ 2147483647 := by
  simp only [portInRange, Bool.and_eq_true, decide_eq_true_eq]

/-- An integer in the range of `HostSetPort` is the value of the word PORT then holds (R13). -/
theorem toInt_ofInt_of_portInRange {v : Int} (h : portInRange v = true) : (BitVec.ofInt 32 v).toInt = v := by
  obtain ⟨hlow, hhigh⟩ := (portInRange_iff v).mp h
  exact BitVec.toInt_ofInt_eq_self (by decide) hlow (Int.lt_add_one_of_le hhigh)

theorem hostSetPort_inRange {v : Int} (s : State) (h : portInRange v = true) :
    hostSetPort v s = .next { s with port := BitVec.ofInt 32 v } := by
  rw [hostSetPort, if_pos h]

theorem hostSetPort_outOfRange {v : Int} (s : State) (h : ¬ portInRange v = true) :
    hostSetPort v s = .refused .portOutOfRange := by
  rw [hostSetPort, if_neg h]

/-- A read of an item with a value answers that value and changes nothing else (R35). -/
theorem perform_read_of_some {x : Item} {s : State} {a : Answer} (h : readItem x s = some a) :
    perform (.read x) s = .next { s with answers := s.answers ++ [a] } := by
  rw [perform, hostRead, h]

/-- A buffer reads as what it holds. -/
theorem readItem_buffer {b : Buffer} {s : State} {v : Option Bytes} (h : s.mem.fetch b = v) :
    readItem (.buffer b) s = some (bufferAnswer v) := by
  rw [readItem, h]

/-- `HostCopy` of a buffer it names is a load of what OUT holds. -/
theorem hostCopy_eq_hostLoad {b : Buffer} (s : State) (h : b.copiesFromOut = true) :
    hostCopy b s = hostLoad b s.mem.out s := by
  rw [hostCopy, if_pos h]

theorem hostCopy_fits {b : Buffer} (s : State) (hb : b.copiesFromOut = true) (hl : s.mem.out.length ≤ b.capacity) :
    hostCopy b s = .next { s with mem := s.mem.store s.mem.out b } := by
  rw [hostCopy_eq_hostLoad s hb, hostLoad_fits s (by rintro rfl; cases hb) hl]

theorem hostCopy_over {b : Buffer} (s : State) (hb : b.copiesFromOut = true) (hl : b.capacity < s.mem.out.length) :
    hostCopy b s = .refused .overCapacity := by
  rw [hostCopy_eq_hostLoad s hb, hostLoad_over s (by rintro rfl; cases hb) hl]

end Sys2Proof.Machine

namespace Sys2Proof.Proofs

open Sys2Proof.Machine

/-- Settles O15: a load that takes place is one store, and a store reaches one buffer. -/
theorem hostLoadFillsOneBuffer : Obligations.HostLoadFillsOneBuffer := by
  unfold Obligations.HostLoadFillsOneBuffer
  intro b bs s
  refine ⟨fun hb hfits => ⟨_, hostLoad_fits s hb hfits, fetch_store_same s.mem bs b,
    fun c hc => fetch_store_other s.mem bs hc, rfl, rfl, rfl, rfl, rfl⟩, fun hb hover => hostLoad_over s hb hover, ?_⟩
  rintro rfl
  rfl

/-- Settles O16: HDR and ATTR have the value absent, and the other three buffers have no such value. -/
theorem hostAbsentEmptiesOneBuffer : Obligations.HostAbsentEmptiesOneBuffer := by
  unfold Obligations.HostAbsentEmptiesOneBuffer
  intro b s
  constructor
  · intro hb
    have hcan : b.canBeAbsent = true := by rcases hb with rfl | rfl <;> rfl
    obtain ⟨m, hm⟩ := makeAbsent_of_canBeAbsent s.mem hcan
    obtain ⟨-, habsent, hother⟩ := makeAbsent_spec hm
    exact ⟨_, hostAbsent_of_some hm, habsent, hother, rfl, rfl, rfl, rfl, rfl⟩
  · rintro (rfl | rfl | rfl) <;> rfl

/-- Settles O17: the word PORT takes is `BitVec.ofInt 32 v`, whose two's complement value is v in the whole range. -/
theorem hostSetPortWritesTheInteger : Obligations.HostSetPortWritesTheInteger := by
  unfold Obligations.HostSetPortWritesTheInteger
  intro v s
  constructor
  · intro hlow hhigh
    have hrange := (portInRange_iff v).mpr ⟨hlow, hhigh⟩
    exact ⟨_, toInt_ofInt_of_portInRange hrange, hostSetPort_inRange s hrange⟩
  · intro hout
    refine hostSetPort_outOfRange s fun hrange => ?_
    have := (portInRange_iff v).mp hrange
    omega

/-- Settles O18: every item but CMD has a value to read, and a read adds it to the answers. -/
theorem hostReadChangesNothing : Obligations.HostReadChangesNothing := by
  unfold Obligations.HostReadChangesNothing
  intro s
  exact ⟨perform_read_of_some rfl, perform_read_of_some rfl, perform_read_of_some rfl, perform_read_of_some rfl,
    fun _ _ hpresent => perform_read_of_some (readItem_buffer hpresent),
    fun _ habsent => perform_read_of_some (readItem_buffer habsent), rfl⟩

/-- Settles O19: a copy into VAL or ATTR is the load of OUT's bytes, with the capacities of those two buffers. -/
theorem hostCopyIsALoadOfOut : Obligations.HostCopyIsALoadOfOut := by
  unfold Obligations.HostCopyIsALoadOfOut
  intro s
  refine ⟨hostCopy_eq_hostLoad s rfl, hostCopy_eq_hostLoad s rfl,
    fun hattr => hostCopy_fits (b := .attr) s rfl hattr, fun hval => hostCopy_fits (b := .val) s rfl hval,
    fun hattr => hostCopy_over (b := .attr) s rfl hattr, fun hval => hostCopy_over (b := .val) s rfl hval, ?_⟩
  rintro b (rfl | rfl | rfl) <;> rfl

end Sys2Proof.Proofs
end

section
/-!
SUPPORT. The two memory primitives of R31, inside the length and outside it. O52.
-/

namespace Sys2Proof.Machine

/-- What `MemWrite` leaves in a buffer, when it answers: `v` at offset `off`, and the bytes of `b` elsewhere. -/
def overwrite (b : Bytes) (off : Nat) (v : Bytes) : Bytes := b.take off ++ v ++ b.drop (off + v.length)

theorem memWrite_inside {b v : Bytes} {off : Nat} (h : off + v.length ≤ b.length) :
    memWrite b off v = .ok (overwrite b off v) := memWrite_ok.mpr ⟨h, rfl⟩

theorem memWrite_outside {b v : Bytes} {off : Nat} (h : b.length < off + v.length) :
    memWrite b off v = undefinedUse .outsideBuffer := by
  rw [memWrite, if_neg (by omega)]

theorem memRead_outside {b : Bytes} {off n : Nat} (h : b.length < off + n) :
    memRead b off n = undefinedUse .outsideBuffer := by
  rw [memRead, if_neg (by omega)]

/-- A write inside the length keeps the length. -/
theorem overwrite_length {b v : Bytes} {off : Nat} (h : off + v.length ≤ b.length) :
    (overwrite b off v).length = b.length := by
  simp only [overwrite, List.length_append, List.length_take, List.length_drop]
  omega

/-- A read of the written range answers the bytes written. -/
theorem memRead_overwrite {b v : Bytes} {off : Nat} (h : off + v.length ≤ b.length) :
    memRead (overwrite b off v) off v.length = .ok v := by
  have hoff : (b.take off).length = off := List.length_take_of_le (by omega)
  rw [memRead_ok, overwrite_length h, overwrite, List.append_assoc, List.drop_left' hoff, List.take_left]
  exact ⟨h, rfl⟩

/-- Below the written range every byte is as before. -/
theorem overwrite_getElem?_below {b v : Bytes} {off i : Nat} (h : off + v.length ≤ b.length) (hi : i < off) :
    (overwrite b off v)[i]? = b[i]? := by
  have hlen : i < (b.take off).length := by rw [List.length_take]; omega
  rw [overwrite, List.append_assoc, List.getElem?_append_left hlen, List.getElem?_take_of_lt hi]

/-- Above the written range every byte is as before. -/
theorem overwrite_getElem?_above {b v : Bytes} {off i : Nat} (h : off + v.length ≤ b.length) (hi : off + v.length ≤ i) :
    (overwrite b off v)[i]? = b[i]? := by
  have hlen : (b.take off ++ v).length = off + v.length := by
    rw [List.length_append, List.length_take_of_le (by omega)]
  rw [overwrite, List.getElem?_append_right (by omega), hlen, List.getElem?_drop, Nat.add_sub_cancel' hi]

end Sys2Proof.Machine

namespace Sys2Proof.Proofs

open Sys2Proof.Machine

/-- Settles O52: inside the length the buffer written is `overwrite`, read at its three parts; outside it both guards stop. -/
theorem memWriteSetsThoseBytesOnly : Obligations.MemWriteSetsThoseBytesOnly := by
  unfold Obligations.MemWriteSetsThoseBytesOnly
  constructor
  · intro b v off hfits
    refine ⟨_, memWrite_inside hfits, overwrite_length hfits, memRead_overwrite hfits, ?_⟩
    rintro i (hbelow | habove)
    · exact overwrite_getElem?_below hfits hbelow
    · exact overwrite_getElem?_above hfits habove
  · intro b v off hover
    exact ⟨memWrite_outside hover, memRead_outside hover⟩

end Sys2Proof.Proofs
end

section
/-!
SUPPORT. The opcode map of R54: which words each row selects, that no word selects two rows, and that a word selected by a row is
the word of the command it decodes to. With them the decoder and the encoder are inverse to each other. O7, O8, O9 and O10.
-/

namespace Sys2Proof

/-- A word selects a row when the row's mask leaves the row's bits of it (R54). -/
theorem OpcodeRow.selects_iff (r : OpcodeRow) (w : Word) : r.selects w = true ↔ w &&& r.mask = r.bits := beq_iff_eq

/-- A row that masks nothing out, as every row of format N, is selected by one word. -/
theorem selects_fullMask (m : Mnemonic) (bits w : Word) :
    (OpcodeRow.mk m bits 0xFFFFFFFF#32).selects w = true ↔ w = bits := by
  rw [OpcodeRow.selects_iff, show 0xFFFFFFFF#32 = BitVec.allOnes 32 by decide, BitVec.and_allOnes]

/-- The row of format T is selected by the words whose lower half is 1. -/
theorem selects_lowHalfMask (m : Mnemonic) (w : Word) :
    (OpcodeRow.mk m 0x00000001#32 0x0000FFFF#32).selects w = true ↔ w.toNat % 65536 = 1 := by
  have hand : (w &&& 0x0000FFFF#32).toNat = w.toNat % 65536 := Nat.and_two_pow_sub_one_eq_mod w.toNat 16
  rw [OpcodeRow.selects_iff, ← BitVec.toNat_inj, hand]
  rfl

/-- Every row looks at the whole of OPC, so a selected row has the word's OPC (R51, R54). -/
theorem opcField_of_selects {r : OpcodeRow} {w : Word} (hr : r ∈ opcodeTable) (h : r.selects w = true) :
    opcField r.bits = opcField w := by
  have hmask : ∀ r ∈ opcodeTable, opcField r.mask = BitVec.allOnes 8 := by decide
  calc opcField r.bits = opcField (w &&& r.mask) := by rw [(r.selects_iff w).mp h]
    _ = opcField w &&& opcField r.mask := BitVec.extractLsb'_and
    _ = opcField w := by rw [hmask r hr, BitVec.and_allOnes]

/-- No word selects two rows: no two rows have the same OPC (R54). -/
theorem selects_unique {r r' : OpcodeRow} {w : Word} (hr : r ∈ opcodeTable) (hr' : r' ∈ opcodeTable)
    (h : r.selects w = true) (h' : r'.selects w = true) : r = r' := by
  have hopc : ∀ r ∈ opcodeTable, ∀ r' ∈ opcodeTable, opcField r.bits = opcField r'.bits → r = r' := by decide
  exact hopc r hr r' hr' ((opcField_of_selects hr h).trans (opcField_of_selects hr' h').symm)

/-- A word decodes to a command exactly when a row it selects names that command. -/
theorem decode_ok_iff_row {w : Word} {i : Instr} :
    decode w = .ok i ↔ ∃ r ∈ opcodeTable, r.selects w = true ∧ r.mnemonic.instr (imm16Field w) = i := by
  unfold decode
  split
  · rename_i r hfind
    have hr := List.mem_of_find?_eq_some hfind
    have hsel := List.find?_some (p := fun r : OpcodeRow => r.selects w) hfind
    constructor
    · intro h
      exact ⟨r, hr, hsel, Except.ok.inj h⟩
    · rintro ⟨r', hr', hsel', hi⟩
      rw [selects_unique hr hr' hsel hsel', hi]
  · rename_i hfind
    constructor
    · intro h
      cases h
    · rintro ⟨r, hr, hsel, -⟩
      exact absurd hsel (List.find?_eq_none.mp hfind r hr)

/-- A word is illegal exactly when it selects no row (R55). -/
theorem decode_error_iff_row {w : Word} :
    (∃ e, decode w = .error e) ↔ ¬ ∃ r ∈ opcodeTable, r.selects w = true := by
  constructor
  · rintro ⟨e, he⟩ ⟨r, hr, hsel⟩
    cases he.symm.trans (decode_ok_iff_row.mpr ⟨r, hr, hsel, rfl⟩)
  · intro hnone
    cases hd : decode w with
    | error e => exact ⟨e, rfl⟩
    | ok i =>
      obtain ⟨r, hr, hsel, -⟩ := decode_ok_iff_row.mp hd
      exact absurd ⟨r, hr, hsel⟩ hnone

/-- `w[31:16]` in numbers (R51). -/
theorem imm16Field_toNat (w : Word) : (imm16Field w).toNat = w.toNat / 65536 := by
  have hw := w.isLt
  rw [imm16Field, BitVec.extractLsb'_toNat, Nat.shiftRight_eq_div_pow]
  omega

/-- A word in numbers, from its three fields (R51). -/
theorem toNat_eq_fields (w : Word) :
    w.toNat = (imm16Field w).toNat * 65536 + (zeroField w).toNat * 256 + (opcField w).toNat := by
  rw [imm16Field_toNat]
  simp only [zeroField, opcField, BitVec.extractLsb'_toNat, Nat.shiftRight_eq_div_pow]
  omega

/-- The word of TLV.ENC in numbers: `(type << 16) | 0x0001` (R54, R58). -/
theorem encode_tlvEnc_toNat (type : Half) : (encode (.tlvEnc type)).toNat = type.toNat * 65536 + 1 := by
  obtain ⟨-, hzero, himm, hopc⟩ := Laws.EncodedFormat.tlvEnc type
  rw [toNat_eq_fields, himm, hzero, hopc]
  simp

/-- A word that selects a row is the word of the command the row names: format T keeps its upper half as the type, format N has no
other word (R54, R56). -/
theorem encode_of_selects {r : OpcodeRow} {w : Word} (hr : r ∈ opcodeTable) (h : r.selects w = true) :
    encode (r.mnemonic.instr (imm16Field w)) = w := by
  simp only [opcodeTable, List.mem_cons, List.not_mem_nil, or_false] at hr
  rcases hr with rfl | rfl | rfl | rfl | rfl | rfl | rfl | rfl | rfl
  case inl =>
    have hlow := (selects_lowHalfMask _ w).mp h
    apply BitVec.eq_of_toNat_eq
    rw [Mnemonic.instr, encode_tlvEnc_toNat, imm16Field_toNat]
    omega
  all_goals exact ((selects_fullMask _ _ w).mp h).symm

/-- The word of a command selects the row with its mnemonic. -/
theorem exists_row_selects_encode (i : Instr) :
    ∃ r ∈ opcodeTable, r.selects (encode i) = true ∧ r.mnemonic = i.mnemonic := by
  cases i with
  | tlvEnc type =>
    refine ⟨⟨.tlvEnc, 0x00000001#32, 0x0000FFFF#32⟩, by decide, (selects_lowHalfMask _ _).mpr ?_, rfl⟩
    rw [encode_tlvEnc_toNat]
    omega
  | maEnc | maVal | maPort | maAddr | xmaChk | xmaEnc | xmaPort | xmaAddr =>
    exact ⟨⟨_, _, 0xFFFFFFFF#32⟩, by decide, (selects_fullMask _ _ _).mpr rfl, rfl⟩

/-- The immediate of a command's word is the type, and a mnemonic of format N has no use for it (R51, R52). -/
theorem mnemonic_instr_imm16Field_encode (i : Instr) : i.mnemonic.instr (imm16Field (encode i)) = i := by
  cases i with
  | tlvEnc type =>
    obtain ⟨-, -, himm, -⟩ := Laws.EncodedFormat.tlvEnc type
    rw [himm]
    rfl
  | maEnc | maVal | maPort | maAddr | xmaChk | xmaEnc | xmaPort | xmaAddr => rfl

/-- Decoder and encoder are inverse to each other: a word decodes to a command exactly when it is that command's word. -/
theorem decode_ok_iff {w : Word} {i : Instr} : decode w = .ok i ↔ encode i = w := by
  constructor
  · intro h
    obtain ⟨r, hr, hsel, rfl⟩ := decode_ok_iff_row.mp h
    exact encode_of_selects hr hsel
  · rintro rfl
    obtain ⟨r, hr, hsel, hm⟩ := exists_row_selects_encode i
    exact decode_ok_iff_row.mpr ⟨r, hr, hsel, by rw [hm, mnemonic_instr_imm16Field_encode]⟩

end Sys2Proof

namespace Sys2Proof.Proofs

/-- Settles O7: the word of a command selects the row of its mnemonic and carries its type. -/
theorem decodeEncodeRoundTrip : Obligations.DecodeEncodeRoundTrip := by
  unfold Obligations.DecodeEncodeRoundTrip
  intro i _
  exact decode_ok_iff.mpr rfl

/-- Settles O8: a selected row fixes every bit of the word but the type, which the command keeps. -/
theorem decodedWordIsItsEncoding : Obligations.DecodedWordIsItsEncoding := by
  unfold Obligations.DecodedWordIsItsEncoding
  intro w i h
  exact decode_ok_iff.mp h

/-- Settles O9: the words by the encoder's table, and one row for each word because the nine values of OPC differ. -/
theorem opcodeMapIsUnambiguous : Obligations.OpcodeMapIsUnambiguous := by
  unfold Obligations.OpcodeMapIsUnambiguous
  exact ⟨encode_tlvEnc_toNat, rfl, rfl, rfl, rfl, rfl, rfl, rfl, rfl, fun _ _ _ hr hr' h h' => selects_unique hr hr' h h'⟩

/-- Settles O10: each of the six words is the encoding of its command. -/
theorem wordsOfTheOpcodeMapDecode : Obligations.WordsOfTheOpcodeMapDecode := by
  unfold Obligations.WordsOfTheOpcodeMapDecode
  simp only [decode_ok_iff]
  decide

end Sys2Proof.Proofs
end

section
/-!
SUPPORT. The illegal words in numbers, and what a write of CMD does with a word that decodes and with one that does not (R50, R55).
O11 and O13.
-/

namespace Sys2Proof

/-- The words that select a row, in numbers: those with lower half 1, and the eight words of format N (R54). -/
theorem exists_row_selects_iff (w : Word) :
    (∃ r ∈ opcodeTable, r.selects w = true) ↔
      w.toNat % 65536 = 1 ∨ w.toNat ∈ [0x10, 0x11, 0x12, 0x13, 0x20, 0x21, 0x22, 0x23] := by
  simp only [opcodeTable, List.exists_mem_cons_iff, selects_lowHalfMask, selects_fullMask, ← BitVec.toNat_inj]
  simp only [BitVec.toNat_ofNat, List.mem_cons, List.not_mem_nil, false_and, exists_false]

/-- The illegal words by their three fields (R55). -/
theorem decode_error_iff (w : Word) :
    (∃ e, decode w = .error e) ↔
      ((w.toNat % 256 ∉ [0x01, 0x10, 0x11, 0x12, 0x13, 0x20, 0x21, 0x22, 0x23]) ∨ w.toNat / 256 % 256 ≠ 0 ∨
        (w.toNat % 256 ≠ 0x01 ∧ w.toNat / 65536 ≠ 0)) := by
  rw [decode_error_iff_row, exists_row_selects_iff]
  simp only [List.mem_cons, List.not_mem_nil, or_false]
  omega

end Sys2Proof

namespace Sys2Proof.Machine

open Sys2Proof.Claims

/-- A CMD write of a word that decodes executes the command (R50). -/
theorem hostCmd_of_ok {w : Word} {i : Instr} (s : State) (h : decode w = .ok i) : hostCmd w s = exec i s := by
  simp only [hostCmd, h]

/-- A CMD write of an illegal word is reported with code 4 (R55). -/
theorem hostCmd_of_error {w : Word} {e : IllegalWord} (s : State) (h : decode w = .error e) :
    hostCmd w s = .next (failed s 4) := by
  simp only [hostCmd, h, raiseError_eq_failed]
  rfl

end Sys2Proof.Machine

namespace Sys2Proof.Proofs

open Sys2Proof.Machine

/-- Settles O11: the words that select no row, by their fields, and the end R55 gives a write of one. -/
theorem illegalCommandsAreReported : Obligations.IllegalCommandsAreReported := by
  unfold Obligations.IllegalCommandsAreReported
  refine ⟨decode_error_iff, fun w e s h => hostCmd_of_error s h, ?_⟩
  simp only [List.forall_mem_cons]
  exact ⟨⟨_, rfl⟩, ⟨_, rfl⟩, ⟨_, rfl⟩, ⟨_, rfl⟩, ⟨_, rfl⟩, List.forall_mem_nil _⟩

/-- Settles O13: the step performs the CMD write, and the write does what its word decodes to. -/
theorem stepRunsTheDecodedCommand : Obligations.StepRunsTheDecodedCommand := by
  unfold Obligations.StepRunsTheDecodedCommand
  intro s w rest hagenda
  rw [step_of_agenda_cons hagenda]
  exact ⟨fun _ h => hostCmd_of_ok _ h, fun _ h => hostCmd_of_error _ h⟩

end Sys2Proof.Proofs
end

section
/-!
SUPPORT. The assembler of R58, line by line. O12.
-/

namespace Sys2Proof

/-- The word of TLV.ENC with a type given as a number: what the type loses above 16 bits, the word loses above 32 (R58). -/
theorem encode_tlvEnc_ofNat (t : Nat) :
    encode (.tlvEnc (BitVec.ofNat 16 t)) = BitVec.ofNat 32 (t * 65536 + 1) := by
  apply BitVec.eq_of_toNat_eq
  rw [encode_tlvEnc_toNat, BitVec.toNat_ofNat, BitVec.toNat_ofNat]
  omega

/-- TLV.ENC with a number assembles exactly when the number is a type (R52, R58). -/
theorem assemble_tlvEnc (t : Nat) :
    assemble ⟨.tlvEnc, some t⟩ = if t ≤ 0xFFFF then some (encode (.tlvEnc (BitVec.ofNat 16 t))) else none := by
  by_cases h : t ≤ 0xFFFF <;> simp [assemble, AsmLine.instr?, AsmLine.wf, Mnemonic.instr, h]

/-- A mnemonic of format N takes no operand (R58). -/
theorem assemble_operand_of_ne_tlvEnc {m : Mnemonic} (hm : m ≠ .tlvEnc) (t : Nat) : assemble ⟨m, some t⟩ = none := by
  cases m with
  | tlvEnc => exact absurd rfl hm
  | maEnc | maVal | maPort | maAddr | xmaChk | xmaEnc | xmaPort | xmaAddr => rfl

/-- A mnemonic of format N assembles bare to the word of its command (R58). -/
theorem assemble_bare_of_ne_tlvEnc {i : Instr} (hi : i.mnemonic ≠ .tlvEnc) :
    assemble ⟨i.mnemonic, none⟩ = some (encode i) := by
  cases i with
  | tlvEnc type => exact absurd rfl hi
  | maEnc | maVal | maPort | maAddr | xmaChk | xmaEnc | xmaPort | xmaAddr => rfl

end Sys2Proof

namespace Sys2Proof.Proofs

/-- Settles O12: TLV.ENC by the range of its type, every other mnemonic by whether it stands bare. -/
theorem assemblerWords : Obligations.AssemblerWords := by
  unfold Obligations.AssemblerWords
  refine ⟨fun t ht => ?_, fun t ht => ?_, rfl, fun m t hm => assemble_operand_of_ne_tlvEnc hm t,
    fun i hi => assemble_bare_of_ne_tlvEnc hi⟩
  · rw [assemble_tlvEnc, if_pos ht, encode_tlvEnc_ofNat]
  · rw [assemble_tlvEnc, if_neg (by omega)]

end Sys2Proof.Proofs
end

section
/-!
SUPPORT. A command's calculation takes the operands R53 lists for it and no other, and its results are the calculation's alone. O24.
-/

namespace Sys2Proof.Machine

open Sys2Proof.Claims

/-- States that agree on the listed operands give the same calculation (R53). -/
theorem calcOf_congr {i : Instr} {s s' : State} (h : AgreeOnOperands i s s') : calcOf i s = calcOf i s' := by
  cases i with
  | tlvEnc _ | maVal | maPort | maAddr | xmaChk =>
    simp only [AgreeOnOperands] at h
    simp only [calcOf, h]
  | maEnc | xmaPort | xmaAddr =>
    obtain ⟨hfst, hsnd⟩ := h
    simp only [calcOf, hfst, hsnd]
  | xmaEnc =>
    obtain ⟨hhdr, haddr, hport⟩ := h
    simp only [calcOf, hhdr, haddr, hport]

/-- Two commands that end with the same calculation leave the same results, from whatever states (R125). -/
theorem finish_sameResults {c : Calc Result} {s s' t t' : State} (h : finish c s = .next t) (h' : finish c s' = .next t') :
    SameResults t t' := by
  rcases c with (e | f) | r
  · cases h; cases h'
    exact ⟨rfl, rfl, rfl⟩
  · cases h
  · cases h; cases h'
    exact ⟨rfl, rfl, rfl⟩

end Sys2Proof.Machine

namespace Sys2Proof.Proofs

open Sys2Proof.Machine

/-- Settles O24: both runs end with one calculation, that of the operands on which the states agree. -/
theorem commandsReadListedOperandsOnly : Obligations.CommandsReadListedOperandsOnly := by
  unfold Obligations.CommandsReadListedOperandsOnly
  intro i s s' t t' hagree hexec hexec'
  rw [exec_eq_finish] at hexec hexec'
  rw [calcOf_congr hagree] at hexec
  exact finish_sameResults hexec hexec'

end Sys2Proof.Proofs
end

section
/-!
SUPPORT. `roundUp4` as R71 words it, from its three laws: a multiple of 4, not below n, less than n + 4; and the outcome of TLV.ENC
in the numbers of the statements. O34, O36.
-/

namespace Sys2Proof.Machine

open Sys2Proof.Claims

/-- No multiple of 4 that is at least n lies below `roundUp4 n`: two distinct multiples of 4 differ by at least 4, and `roundUp4 n` is below n + 4. -/
theorem roundUp4_least {n m : Nat} (hm : m % 4 = 0) (hle : n ≤ m) : roundUp4 n ≤ m := by
  have hmod := roundUp4_mod n
  have hlt := roundUp4_lt n
  omega

/-- The padding count is the one below 4 that completes n to a multiple of 4 (R71). -/
theorem roundUp4_sub (n : Nat) : roundUp4 n - n = (4 - n % 4) % 4 := by
  have hmod := roundUp4_mod n
  have hle := le_roundUp4 n
  have hlt := roundUp4_lt n
  omega

/-- The LENGTH field counts the value itself, without the padding (R70). -/
theorem bytesBe16_ofNat {n : Nat} (h : n ≤ 65535) : bytesBe16 (BitVec.ofNat 16 n) = bigEndian2 n := by
  rw [bytesBe16_eq, BitVec.toNat_ofNat, Nat.mod_eq_of_lt (by omega)]

end Sys2Proof.Machine

namespace Sys2Proof.Proofs

open Sys2Proof.Machine Sys2Proof.Claims

/-- Settles O36: the bound up to 65535 is leastness at the multiple 65536. -/
theorem roundUp4IsTheLeastMultiple : Obligations.RoundUp4IsTheLeastMultiple := by
  unfold Obligations.RoundUp4IsTheLeastMultiple
  intro n
  exact ⟨roundUp4_mod n, le_roundUp4 n, fun _ hm hle => roundUp4_least hm hle, roundUp4_sub n,
    fun hn => roundUp4_least (by decide) (by omega)⟩

/-- Settles O34: the calculation's frame, with its two fields and its padding count in the statement's numbers. -/
theorem tlvEncFramesVal : Obligations.TlvEncFramesVal := by
  unfold Obligations.TlvEncFramesVal
  intro type s hval
  have hcalc := tlvEncCalc_inside type hval
  rw [bytesBe16_eq, bytesBe16_ofNat hval, roundUp4_sub] at hcalc
  exact exec_of_ok (i := .tlvEnc type) hcalc

end Sys2Proof.Proofs
end

section
/-!
SUPPORT. The plain codec of 41_mapped_address.md: the selector and its inverse, the outcome of `Validate` and `TagLenCheck` on the
conditions of the statements, and the four calculations on them. O37, O38, O39, O40, O41 and O43.
-/

namespace Sys2Proof.Machine

open Sys2Proof.Claims

/-- The inverse of the selector: exactly the two tags of R80 have a family. -/
theorem familyOfTag_some {tag : Byte} {f : Family} : familyOfTag tag = some f ↔ tag = f.tag := by
  constructor
  · intro h
    unfold familyOfTag at h
    split at h
    · rename_i htag
      cases h
      exact htag
    · split at h
      · rename_i htag
        cases h
        exact htag
      · cases h
  · rintro rfl
    cases f <;> rfl

/-- The two address lengths of R80, as lengths of a family. -/
theorem exists_addrLen_iff {n : Nat} : (∃ f : Family, n = f.addrLen) ↔ n = 4 ∨ n = 16 := by
  constructor
  · rintro ⟨f, rfl⟩
    cases f
    · exact .inl rfl
    · exact .inr rfl
  · rintro (rfl | rfl)
    · exact ⟨.ipv4, rfl⟩
    · exact ⟨.ipv6, rfl⟩

/-- The tag and length check of R86, as tag and length of one family. -/
theorem tagFitsLength_iff {a : Bytes} :
    TagFitsLength a ↔ ∃ f : Family, a[1]? = some f.tag ∧ a.length = 4 + f.addrLen := by
  constructor
  · rintro (h | h)
    · exact ⟨.ipv4, h⟩
    · exact ⟨.ipv6, h⟩
  · rintro ⟨f, h⟩
    cases f
    · exact .inl h
    · exact .inr h

/-! ### MA.ENC -/

/-- `PORT[15:0]` is PORT modulo 65536 (R90). -/
theorem portLow16_toNat (port : Word) : (portLow16 port).toNat = port.toNat % 65536 := by
  rw [portLow16, BitVec.extractLsb'_toNat, Nat.shiftRight_zero]

/-- The low 16 bits of an integer in two's complement are the integer modulo 65536 (R90, D4). -/
theorem toNat_ofInt_mod (v : Int) : (BitVec.ofInt 32 v).toNat % 65536 = (v % 65536).toNat := by
  rw [BitVec.toNat_ofInt]
  omega

/-- MA.ENC builds the value layout of any address that has a family (R81, R82). -/
theorem maEncCalc_family {addr : Bytes} {f : Family} (port : Word) (h : addr.length = f.addrLen) :
    maEncCalc addr port = .ok ⟨valueLayout f (bytesBe16 (portLow16 port)) addr, 0⟩ := by
  rw [maEncCalc, addressFamily_ok h, memRead_whole]
  rfl

/-- MA.ENC of an address that has a family, in the numbers of the statements. -/
theorem exec_maEnc_of_family {s : State} {f : Family} (h : s.mem.addr.length = f.addrLen) :
    exec .maEnc s =
      .next (succeeded s ([0x00#8, f.tag] ++ bigEndian2 (s.port.toNat % 65536) ++ s.mem.addr) 0) := by
  have hcalc := maEncCalc_family s.port h
  rw [bytesBe16_eq, portLow16_toNat] at hcalc
  exact exec_of_ok (i := .maEnc) hcalc

/-! ### The accessors -/

theorem validate_of_valid {a : Bytes} (h : ValidBytes a) : validate (some a) = .ok a := by
  rw [validate_some]
  exact if_pos h

theorem validate_of_not_valid {a : Bytes} (h : ¬ ValidBytes a) : validate (some a) = raised .malformedAttribute := by
  rw [validate_some]
  exact if_neg h

/-- Bytes that pass `Validate` hold the 4-byte value header. -/
theorem four_le_of_valid {a : Bytes} (h : ValidBytes a) : 4 ≤ a.length := by
  obtain ⟨-, hfour, -, -⟩ := validate_ok (validate_of_valid h)
  exact hfour

/-- The accessors of the plain codec validate ATTR first, and bytes that do not pass are MalformedAttribute (R83). -/
theorem calcOf_of_attr_invalid {i : Instr} {s : State} {a : Bytes} (hi : i = .maVal ∨ i = .maPort ∨ i = .maAddr)
    (hattr : s.mem.attr = some a) (ha : ¬ ValidBytes a) : calcOf i s = raised .malformedAttribute := by
  rcases hi with rfl | rfl | rfl
  all_goals
    simp only [calcOf, maValCalc, maPortCalc, maAddrCalc, hattr, validate_of_not_valid ha]
    rfl

/-- MA.VAL, MA.PORT and MA.ADDR of an absent ATTR fail with code 1. -/
theorem exec_of_attr_absent {i : Instr} {s : State} (hi : i = .maVal ∨ i = .maPort ∨ i = .maAddr)
    (hattr : s.mem.attr = none) : exec i s = .next (failed s 1) :=
  exec_of_raised (calcOf_of_attr_absent hi hattr)

/-- MA.VAL, MA.PORT and MA.ADDR of bytes that do not pass `Validate` fail with code 3. -/
theorem exec_of_attr_invalid {i : Instr} {s : State} {a : Bytes} (hi : i = .maVal ∨ i = .maPort ∨ i = .maAddr)
    (hattr : s.mem.attr = some a) (ha : ¬ ValidBytes a) : exec i s = .next (failed s 3) :=
  exec_of_raised (calcOf_of_attr_invalid hi hattr ha)

theorem maValCalc_valid {a : Bytes} (h : ValidBytes a) : maValCalc (some a) = .ok ⟨[], 0⟩ := by
  rw [maValCalc, validate_of_valid h]
  rfl

/-- A 2-byte field inside the length, in the numbers of the statements. -/
theorem readBe16_byteNat {a : Bytes} {off : Nat} (h : off + 1 < a.length) :
    ∃ p, readBe16 a off = .ok p ∧ p.toNat = byteNat a off * 256 + byteNat a (off + 1) := by
  refine ⟨_, readBe16_inside h, ?_⟩
  rw [be16_toNat, byteNat, byteNat, List.getD_eq_getElem _ _ h, List.getD_eq_getElem _ _ (Nat.lt_of_succ_lt h)]

/-- MA.PORT answers bytes [2:4] of any bytes that pass `Validate` (R85). -/
theorem maPortCalc_valid {a : Bytes} (h : ValidBytes a) :
    ∃ p, maPortCalc (some a) = .ok ⟨[], p⟩ ∧ p.toNat = byteNat a 2 * 256 + byteNat a 3 := by
  obtain ⟨p, hread, hp⟩ := readBe16_byteNat (off := 2) (four_le_of_valid h)
  refine ⟨p, ?_, hp⟩
  rw [maPortCalc, validate_of_valid h]
  exact calc_bind_ok.mpr ⟨a, rfl, calc_bind_ok.mpr ⟨p, hread, rfl⟩⟩

theorem tagLenCheck_of_fits {a : Bytes} (ha : 4 ≤ a.length) (h : TagFitsLength a) : ∃ f, tagLenCheck a = .ok f := by
  obtain ⟨f, htag, hlen⟩ := tagFitsLength_iff.mp h
  rcases tagLenCheck_of a ha with ⟨g, -, -, hg⟩ | ⟨hnone, -⟩
  · exact ⟨g, hg⟩
  · exact absurd hlen (hnone f htag)

theorem tagLenCheck_of_not_fits {a : Bytes} (ha : 4 ≤ a.length) (h : ¬ TagFitsLength a) :
    tagLenCheck a = raised .malformedAttribute := by
  rcases tagLenCheck_of a ha with ⟨g, htag, hlen, -⟩ | ⟨-, hraised⟩
  · exact absurd (tagFitsLength_iff.mpr ⟨g, htag, hlen⟩) h
  · exact hraised

/-- MA.ADDR answers the bytes after the value header of any bytes that pass both checks (R87). -/
theorem maAddrCalc_fits {a : Bytes} (hvalid : ValidBytes a) (hfits : TagFitsLength a) :
    maAddrCalc (some a) = .ok ⟨a.drop 4, 0⟩ := by
  have hfour := four_le_of_valid hvalid
  obtain ⟨f, hf⟩ := tagLenCheck_of_fits hfour hfits
  rw [maAddrCalc, validate_of_valid hvalid]
  exact calc_bind_ok.mpr ⟨a, rfl, calc_bind_ok.mpr ⟨f, hf, calc_bind_ok.mpr ⟨_, memRead_from4 hfour, rfl⟩⟩⟩

/-- After a passed `Validate`, a failed tag and length check is MalformedAttribute too (R86, R87). -/
theorem maAddrCalc_not_fits {a : Bytes} (hvalid : ValidBytes a) (hfits : ¬ TagFitsLength a) :
    maAddrCalc (some a) = raised .malformedAttribute := by
  have hcheck := tagLenCheck_of_not_fits (four_le_of_valid hvalid) hfits
  rw [maAddrCalc, validate_of_valid hvalid]
  exact calc_bind_error.mpr (.inr ⟨a, rfl, calc_bind_error.mpr (.inl hcheck)⟩)

end Sys2Proof.Machine

namespace Sys2Proof.Proofs

open Sys2Proof.Machine Sys2Proof.Claims

/-- Settles O37: a length has a family exactly when it is that family's address length, a tag when it is that family's tag. -/
theorem familySelectorIsByLength : Obligations.FamilySelectorIsByLength := by
  unfold Obligations.FamilySelectorIsByLength
  refine ⟨familyOfLength_some.mpr rfl, familyOfLength_some.mpr rfl, fun n h4 h16 => ?_, rfl, rfl, rfl, rfl,
    fun tag f => familyOfTag_some⟩
  rw [Option.eq_none_iff_forall_ne_some]
  intro f hf
  rcases exists_addrLen_iff.mp ⟨f, familyOfLength_some.mp hf⟩ with hn | hn
  · exact h4 hn
  · exact h16 hn

/-- Settles O38: the two lengths that have a family by the family's tag, every other length by the failed selector. -/
theorem maEncBuildsTheValue : Obligations.MaEncBuildsTheValue := by
  unfold Obligations.MaEncBuildsTheValue
  intro s
  exact ⟨fun h4 => exec_maEnc_of_family (f := .ipv4) h4, fun h16 => exec_maEnc_of_family (f := .ipv6) h16,
    fun h4 h16 => exec_of_raised (i := .maEnc) (maEncCalc_other s.port h4 h16)⟩

/-- Settles O39: MA.VAL ends as `Validate` does, with no bytes and no port. -/
theorem maValReportsValidate : Obligations.MaValReportsValidate := by
  unfold Obligations.MaValReportsValidate
  intro s
  refine ⟨exec_of_attr_absent (.inl rfl), fun a hattr hvalid => ?_, fun a => exec_of_attr_invalid (.inl rfl)⟩
  have hcalc := maValCalc_valid hvalid
  rw [← hattr] at hcalc
  exact exec_of_ok (i := .maVal) hcalc

/-- Settles O40: bytes that pass `Validate` are long enough for the port field, and no check of the tag follows. -/
theorem maPortReadsThePort : Obligations.MaPortReadsThePort := by
  unfold Obligations.MaPortReadsThePort
  intro s
  refine ⟨exec_of_attr_absent (.inr (.inl rfl)), fun a hattr hvalid => ?_,
    fun a => exec_of_attr_invalid (.inr (.inl rfl))⟩
  obtain ⟨p, hcalc, hp⟩ := maPortCalc_valid hvalid
  rw [← hattr] at hcalc
  rw [← hp]
  exact exec_of_ok (i := .maPort) hcalc

/-- Settles O41: of the two checks either can fail, with the same code; past both the address is read to the end. -/
theorem maAddrReturnsTheAddress : Obligations.MaAddrReturnsTheAddress := by
  unfold Obligations.MaAddrReturnsTheAddress
  intro s
  refine ⟨exec_of_attr_absent (.inr (.inr rfl)), fun a hattr hvalid hfits => ?_, fun a hattr hfail => ?_⟩
  · have hcalc := maAddrCalc_fits hvalid hfits
    rw [← hattr] at hcalc
    exact exec_of_ok (i := .maAddr) hcalc
  · by_cases hvalid : ValidBytes a
    · have hcalc := maAddrCalc_not_fits hvalid fun hfits => hfail ⟨hvalid, hfits⟩
      rw [← hattr] at hcalc
      exact exec_of_raised (i := .maAddr) hcalc
    · exact exec_of_attr_invalid (.inr (.inr rfl)) hattr hvalid

/-- Settles O43: the port bytes of MA.ENC are PORT modulo 65536, and the word PORT takes is `BitVec.ofInt 32 v`. -/
theorem portIsTruncatedSilently : Obligations.PortIsTruncatedSilently := by
  unfold Obligations.PortIsTruncatedSilently
  intro v s hlow hhigh haddr
  obtain ⟨f, hf⟩ := exists_addrLen_iff.mpr haddr
  have hset := hostSetPort_inRange s ((portInRange_iff v).mpr ⟨hlow, hhigh⟩)
  refine ⟨_, _, hset, exec_maEnc_of_family (f := f) hf, errField_success, ?_⟩
  rw [← toNat_ofInt_mod]
  rfl

end Sys2Proof.Proofs
end

section
/-!
SUPPORT. The checks that the XOR commands share (42_xor_mapped_address.md): `CheckHeader` on the condition of the statements, and the
commands that stop on HDR or on ATTR. O45.
-/

namespace Sys2Proof.Machine

open Sys2Proof.Claims

/-- The flag mask of R100 tests bits 7 and 6 and no other. -/
theorem and_flagMask_eq_zero_iff (b : Byte) :
    b &&& 0xC0#8 = 0x00#8 ↔ b.getLsbD 7 = false ∧ b.getLsbD 6 = false := by
  constructor
  · intro h
    have hbit (i : Nat) : (b &&& 0xC0#8).getLsbD i = false := by simp [h]
    exact ⟨by simpa using hbit 7, by simpa using hbit 6⟩
  · rintro ⟨h7, h6⟩
    rw [BitVec.getLsbD_eq_getElem (by decide)] at h7 h6
    apply BitVec.eq_of_getLsbD_eq
    intro i hi
    interval_cases i <;> simp [h7, h6]

/-- The header check of R100 on a present header. -/
theorem goodHeader_some_iff {h : Bytes} : GoodHeader (some h) ↔ h.length = 20 ∧ h.getD 0 0 &&& 0xC0#8 = 0x00#8 := by
  constructor
  · rintro ⟨h', b, hh, hlen, hb, hbits⟩
    cases hh
    rw [List.getD_eq_getElem?_getD, hb]
    exact ⟨hlen, (and_flagMask_eq_zero_iff b).mpr hbits⟩
  · rintro ⟨hlen, hmask⟩
    have hpos : 0 < h.length := by omega
    rw [List.getD_eq_getElem _ _ hpos] at hmask
    exact ⟨h, h[0], rfl, hlen, List.getElem?_eq_getElem hpos, (and_flagMask_eq_zero_iff _).mp hmask⟩

theorem length_of_goodHeader {h : Bytes} (hgood : GoodHeader (some h)) : h.length = 20 :=
  (goodHeader_some_iff.mp hgood).1

theorem eq_some_of_goodHeader {hdr : Option Bytes} (hgood : GoodHeader hdr) : ∃ h, hdr = some h := by
  obtain ⟨h, -, hhdr, -⟩ := hgood
  exact ⟨h, hhdr⟩

theorem checkHeader_of_good {h : Bytes} (hgood : GoodHeader (some h)) : checkHeader (some h) = .ok h := by
  rw [checkHeader_some]
  exact if_pos (goodHeader_some_iff.mp hgood)

theorem checkHeader_of_not_good {hdr : Option Bytes} (hbad : ¬ GoodHeader hdr) : checkHeader hdr = raised .invalidInput := by
  cases hdr with
  | none => rfl
  | some h =>
    rw [checkHeader_some]
    exact if_neg fun hpass => hbad (goodHeader_some_iff.mpr hpass)

/-- The XOR commands check HDR first, and a header that does not pass is InvalidInput (R100, R126). -/
theorem calcOf_of_not_goodHeader {i : Instr} {s : State} (hi : IsXor i) (hbad : ¬ GoodHeader s.mem.hdr) :
    calcOf i s = raised .invalidInput := by
  have hcheck := checkHeader_of_not_good hbad
  cases i with
  | xmaChk | xmaEnc | xmaPort | xmaAddr => exact calc_bind_error.mpr (.inl hcheck)
  | tlvEnc _ | maEnc | maVal | maPort | maAddr => exact hi.elim

/-- XMA.PORT and XMA.ADDR validate ATTR next, and raise what `Validate` raises (R104, R105). -/
theorem calcOf_of_validate_raised {i : Instr} {s : State} {e : ErrorKind} (hi : i = .xmaPort ∨ i = .xmaAddr)
    (hgood : GoodHeader s.mem.hdr) (hv : validate s.mem.attr = raised e) : calcOf i s = raised e := by
  obtain ⟨h, hhdr⟩ := eq_some_of_goodHeader hgood
  have hcheck : checkHeader s.mem.hdr = .ok h := by
    rw [hhdr] at hgood ⊢
    exact checkHeader_of_good hgood
  rcases hi with rfl | rfl
  all_goals exact calc_bind_error.mpr (.inr ⟨h, hcheck, calc_bind_error.mpr (.inl hv)⟩)

/-- An XOR command on a header that does not pass fails with code 1. -/
theorem exec_of_not_goodHeader {i : Instr} {s : State} (hi : IsXor i) (hbad : ¬ GoodHeader s.mem.hdr) :
    exec i s = .next (failed s 1) :=
  exec_of_raised (calcOf_of_not_goodHeader hi hbad)

/-- XMA.PORT and XMA.ADDR without a good header or without ATTR fail with code 1. -/
theorem exec_xma_of_operand_missing {i : Instr} {s : State} (hi : i = .xmaPort ∨ i = .xmaAddr)
    (hmissing : ¬ GoodHeader s.mem.hdr ∨ s.mem.attr = none) : exec i s = .next (failed s 1) := by
  have hxor : IsXor i := by rcases hi with rfl | rfl <;> trivial
  by_cases hgood : GoodHeader s.mem.hdr
  · have hattr := hmissing.resolve_left (not_not_intro hgood)
    exact exec_of_raised (calcOf_of_validate_raised hi hgood (by rw [hattr]; rfl))
  · exact exec_of_not_goodHeader hxor hgood

/-- XMA.PORT and XMA.ADDR of bytes that do not pass `Validate` fail with code 3. -/
theorem exec_xma_of_attr_invalid {i : Instr} {s : State} {a : Bytes} (hi : i = .xmaPort ∨ i = .xmaAddr)
    (hgood : GoodHeader s.mem.hdr) (hattr : s.mem.attr = some a) (ha : ¬ ValidBytes a) :
    exec i s = .next (failed s 3) :=
  exec_of_raised (calcOf_of_validate_raised (e := .malformedAttribute) hi hgood
    (by rw [hattr]; exact validate_of_not_valid ha))

theorem xmaChkCalc_good {h : Bytes} (hgood : GoodHeader (some h)) : xmaChkCalc (some h) = .ok ⟨[], 0⟩ :=
  calc_bind_ok.mpr ⟨h, checkHeader_of_good hgood, rfl⟩

end Sys2Proof.Machine

namespace Sys2Proof.Proofs

open Sys2Proof.Machine Sys2Proof.Claims

/-- Settles O45: XMA.CHK ends as `CheckHeader` does, with no bytes and no port. -/
theorem xmaChkReportsTheHeader : Obligations.XmaChkReportsTheHeader := by
  unfold Obligations.XmaChkReportsTheHeader
  intro s
  refine ⟨fun hgood => ?_, exec_of_not_goodHeader trivial⟩
  obtain ⟨h, hhdr⟩ := eq_some_of_goodHeader hgood
  rw [hhdr] at hgood
  have hcalc := xmaChkCalc_good hgood
  rw [← hhdr] at hcalc
  exact exec_of_ok (i := .xmaChk) hcalc

end Sys2Proof.Proofs
end

section
/-!
SUPPORT. The key and the lanes: the exclusive-or of a sequence with the header bytes from offset 4 on, lane by lane (R7, R101, R108),
and the three calculations that use it. O46, O47, O48 and O51.
-/

namespace Sys2Proof.Machine

open Sys2Proof.Claims

/-- Lane i of an exclusive-or with the key is lane i of the sequence and header byte 4 + i, and is there where both are (R108). -/
theorem getElem?_xorLanes_key (xs h : Bytes) (i : Nat) :
    (xorLanes xs ((h.drop 4).take xs.length))[i]? = Option.map₂ (· ^^^ ·) xs[i]? h[4 + i]? := by
  by_cases hi : i < xs.length
  · rw [xorLanes, List.getElem?_zipWith, List.getElem?_take_of_lt hi, List.getElem?_drop, List.getElem?_eq_getElem hi]
    cases h[4 + i]? <;> rfl
  · rw [List.getElem?_eq_none (by simp only [xorLanes_length]; omega), List.getElem?_eq_none (by omega)]
    rfl

/-- The exclusive-or of a whole sequence with the key, as the statements write it. -/
theorem xorLanes_key_eq_map {xs h : Bytes} (hkey : 4 + xs.length ≤ h.length) :
    xorLanes xs ((h.drop 4).take xs.length) =
      (List.range xs.length).map fun i => xs.getD i 0 ^^^ h.getD (4 + i) 0 := by
  apply List.ext_getElem?
  intro i
  rw [getElem?_xorLanes_key, List.getElem?_map]
  by_cases hi : i < xs.length
  · have hk : 4 + i < h.length := by omega
    simp [hi, hk]
  · simp [hi]

/-- The two key bytes of a 2-byte field are header bytes 4 and 5 (R101). -/
theorem xorLanes_key_pair {h : Bytes} (x y : Byte) (hlen : h.length = 20) :
    xorLanes [x, y] ((h.drop 4).take 2) = [x ^^^ h.getD 4 0, y ^^^ h.getD 5 0] :=
  xorLanes_key_eq_map (xs := [x, y]) (by simp [hlen])

theorem byteAt_getD {b : Bytes} {i : Nat} (h : i < b.length) : byteAt b i = .ok (b.getD i 0) := by
  rw [byteAt_inside h, List.getD_eq_getElem _ _ h]

/-! ### XMA.ENC -/

/-- After a passed header check an address of another length than 4 and 16 is UnsupportedAddressFamily (R103). -/
theorem xmaEncCalc_other {h addr : Bytes} (port : Word) (hgood : GoodHeader (some h)) (h4 : addr.length ≠ 4)
    (h16 : addr.length ≠ 16) : xmaEncCalc (some h) addr port = raised .unsupportedAddressFamily :=
  calc_bind_error.mpr (.inr ⟨h, checkHeader_of_good hgood, calc_bind_error.mpr (.inl (addressFamily_other h4 h16))⟩)

/-- XMA.ENC builds the value layout of the port field and the address, each XORed with the key from its start (R103). -/
theorem xmaEncCalc_family {h addr : Bytes} {f : Family} (port : Word) (hgood : GoodHeader (some h))
    (haddr : addr.length = f.addrLen) :
    xmaEncCalc (some h) addr port =
      .ok ⟨valueLayout f (xorLanes (bytesBe16 (portLow16 port)) ((h.drop 4).take 2))
        (xorLanes addr ((h.drop 4).take addr.length)), 0⟩ := by
  have hlen := length_of_goodHeader hgood
  have hle : addr.length ≤ 16 := haddr ▸ f.addrLen_le
  rw [xmaEncCalc, checkHeader_of_good hgood]
  exact calc_bind_ok.mpr ⟨h, rfl, calc_bind_ok.mpr ⟨f, addressFamily_ok haddr,
    calc_bind_ok.mpr ⟨_, keyBytes_inside hlen (by decide), calc_bind_ok.mpr ⟨_, keyBytes_inside hlen hle,
      calc_bind_ok.mpr ⟨addr, memRead_whole addr, rfl⟩⟩⟩⟩⟩

/-- The port field as the statements write its two bytes (R90). -/
theorem bytesBe16_portLow16 (port : Word) :
    bytesBe16 (portLow16 port) = [BitVec.ofNat 8 (port.toNat % 65536 / 256), BitVec.ofNat 8 (port.toNat % 256)] := by
  rw [bytesBe16_eq, portLow16_toNat, bigEndian2, Nat.mod_mod_of_dvd _ (by decide)]

/-- The tag of an address that has a family, by the address length (R80). -/
theorem tag_of_addrLen {n : Nat} {f : Family} (h : n = f.addrLen) : f.tag = if n = 4 then 0x01#8 else 0x02#8 := by
  subst h
  cases f <;> rfl

/-- In the value layout the address field starts at offset 4 (R81). -/
theorem getElem?_valueLayout_address (f : Family) {portField : Bytes} (addrField : Bytes) (i : Nat)
    (hport : portField.length = 2) : (valueLayout f portField addrField)[4 + i]? = addrField[i]? := by
  rw [valueLayout, List.getElem?_append_right (by simp [hport])]
  simp [hport]

/-- Lane i of the address field that XMA.ENC answers (R108). -/
theorem xmaEncCalc_lane {h addr : Bytes} {port : Word} {r : Result} (hr : xmaEncCalc (some h) addr port = .ok r) (i : Nat) :
    r.out[4 + i]? = Option.map₂ (· ^^^ ·) addr[i]? h[4 + i]? := by
  obtain ⟨hb, f, hcheck, -, rfl⟩ := xmaEncCalc_ok hr
  obtain ⟨hhb, hlen, -⟩ := checkHeader_ok hcheck
  cases hhb
  rw [getElem?_valueLayout_address f _ i (by simp [hlen]), getElem?_xorLanes_key]

/-- A command that leaves ERR = 0 succeeded with its calculation's result. -/
theorem exec_next_of_errField_zero {i : Instr} {s t : State} (h : exec i s = .next t) (herr : errField t.status = 0) :
    ∃ r, calcOf i s = .ok r ∧ t = succeed r.out r.port s := by
  rcases exec_next h with hok | ⟨e, -, rfl⟩
  · exact hok
  · rw [raiseError_status] at herr
    exact absurd herr (by cases e <;> decide)

/-! ### XMA.PORT and XMA.ADDR -/

/-- XMA.PORT answers ATTR bytes 2 and 3 XOR header bytes 4 and 5 (R104). -/
theorem xmaPortCalc_valid {h a : Bytes} (hgood : GoodHeader (some h)) (hvalid : ValidBytes a) :
    xmaPortCalc (some h) (some a) =
      .ok ⟨[], be16 (a.getD 2 0 ^^^ h.getD 4 0) (a.getD 3 0 ^^^ h.getD 5 0)⟩ := by
  have hfour := four_le_of_valid hvalid
  have hlen := length_of_goodHeader hgood
  rw [xmaPortCalc, checkHeader_of_good hgood, validate_of_valid hvalid]
  exact calc_bind_ok.mpr ⟨h, rfl, calc_bind_ok.mpr ⟨a, rfl,
    calc_bind_ok.mpr ⟨_, byteAt_getD (by omega), calc_bind_ok.mpr ⟨_, byteAt_getD (by omega),
      calc_bind_ok.mpr ⟨_, byteAt_getD (by omega), calc_bind_ok.mpr ⟨_, byteAt_getD (by omega), rfl⟩⟩⟩⟩⟩⟩

/-- After a passed `Validate`, a failed tag and length check is MalformedAttribute too (R86, R105). -/
theorem xmaAddrCalc_not_fits {h a : Bytes} (hgood : GoodHeader (some h)) (hvalid : ValidBytes a)
    (hfits : ¬ TagFitsLength a) : xmaAddrCalc (some h) (some a) = raised .malformedAttribute := by
  have hcheck := tagLenCheck_of_not_fits (four_le_of_valid hvalid) hfits
  rw [xmaAddrCalc, checkHeader_of_good hgood, validate_of_valid hvalid]
  exact calc_bind_error.mpr (.inr ⟨h, rfl, calc_bind_error.mpr (.inr ⟨a, rfl, calc_bind_error.mpr (.inl hcheck)⟩)⟩)

/-- A value that passes the tag and length check has an address field of at most 16 bytes. -/
theorem length_sub_four_le_of_fits {a : Bytes} (hfits : TagFitsLength a) : a.length - 4 ≤ 16 := by
  obtain ⟨f, -, hlen⟩ := tagFitsLength_iff.mp hfits
  have hf := f.addrLen_le
  omega

/-- XMA.ADDR answers the bytes after the value header, XORed with the key (R105). -/
theorem xmaAddrCalc_fits {h a : Bytes} (hgood : GoodHeader (some h)) (hvalid : ValidBytes a) (hfits : TagFitsLength a) :
    xmaAddrCalc (some h) (some a) = .ok ⟨xorLanes (a.drop 4) ((h.drop 4).take (a.length - 4)), 0⟩ := by
  have hfour := four_le_of_valid hvalid
  obtain ⟨f, hf⟩ := tagLenCheck_of_fits hfour hfits
  have hkey := keyBytes_inside (length_of_goodHeader hgood) (length_sub_four_le_of_fits hfits)
  rw [xmaAddrCalc, checkHeader_of_good hgood, validate_of_valid hvalid]
  exact calc_bind_ok.mpr ⟨h, rfl, calc_bind_ok.mpr ⟨a, rfl, calc_bind_ok.mpr ⟨f, hf,
    calc_bind_ok.mpr ⟨_, memRead_from4 hfour, calc_bind_ok.mpr ⟨_, hkey, rfl⟩⟩⟩⟩⟩

/-- The plain address field as the statements write it: ATTR byte j XOR header byte j for j from 4 (R105). -/
theorem xorLanes_address_eq_map {h a : Bytes} (hlen : h.length = 20) (hle : a.length - 4 ≤ 16) :
    xorLanes (a.drop 4) ((h.drop 4).take (a.length - 4)) =
      (List.range (a.length - 4)).map fun i => a.getD (4 + i) 0 ^^^ h.getD (4 + i) 0 := by
  have hlanes := xorLanes_key_eq_map (xs := a.drop 4) (h := h) (by rw [List.length_drop]; omega)
  simpa using hlanes

end Sys2Proof.Machine

namespace Sys2Proof.Proofs

open Sys2Proof.Machine Sys2Proof.Claims

/-- Settles O46: past the header check the address length decides; with a family, port and address are lanes of the key. -/
theorem xmaEncBuildsTheValue : Obligations.XmaEncBuildsTheValue := by
  unfold Obligations.XmaEncBuildsTheValue
  intro s
  refine ⟨exec_of_not_goodHeader trivial, fun hgood h4 h16 => ?_, fun h hhdr hgood haddr => ?_⟩
  · obtain ⟨h, hhdr⟩ := eq_some_of_goodHeader hgood
    rw [hhdr] at hgood
    have hcalc := xmaEncCalc_other s.port hgood h4 h16
    rw [← hhdr] at hcalc
    exact exec_of_raised (i := .xmaEnc) hcalc
  · rw [hhdr] at hgood
    have hlen := length_of_goodHeader hgood
    obtain ⟨f, hf⟩ := exists_addrLen_iff.mpr haddr
    have hkey : 4 + s.mem.addr.length ≤ h.length := by omega
    have hcalc := xmaEncCalc_family s.port hgood hf
    rw [← hhdr, bytesBe16_portLow16, xorLanes_key_pair _ _ hlen, xorLanes_key_eq_map hkey, valueLayout,
      tag_of_addrLen hf] at hcalc
    exact exec_of_ok (i := .xmaEnc) hcalc

/-- Settles O47: the two bytes XORed with the key, high byte first, as a number. -/
theorem xmaPortRecoversThePort : Obligations.XmaPortRecoversThePort := by
  unfold Obligations.XmaPortRecoversThePort
  intro s
  refine ⟨exec_xma_of_operand_missing (.inl rfl), fun a => exec_xma_of_attr_invalid (.inl rfl),
    fun h a hhdr hgood hattr hvalid => ?_⟩
  rw [hhdr] at hgood
  have hcalc := xmaPortCalc_valid hgood hvalid
  rw [← hhdr, ← hattr] at hcalc
  rw [← be16_toNat]
  exact exec_of_ok (i := .xmaPort) hcalc

/-- Settles O48: either check of ATTR can fail, with the same code; past both the address field is lanes of the key. -/
theorem xmaAddrRecoversTheAddress : Obligations.XmaAddrRecoversTheAddress := by
  unfold Obligations.XmaAddrRecoversTheAddress
  intro s
  refine ⟨exec_xma_of_operand_missing (.inr rfl), fun a hgood hattr hfail => ?_,
    fun h a hhdr hgood hattr hvalid hfits => ?_⟩
  · by_cases hvalid : ValidBytes a
    · obtain ⟨h, hhdr⟩ := eq_some_of_goodHeader hgood
      rw [hhdr] at hgood
      have hcalc := xmaAddrCalc_not_fits hgood hvalid fun hfits => hfail ⟨hvalid, hfits⟩
      rw [← hhdr, ← hattr] at hcalc
      exact exec_of_raised (i := .xmaAddr) hcalc
    · exact exec_xma_of_attr_invalid (.inr rfl) hgood hattr hvalid
  · rw [hhdr] at hgood
    have hcalc := xmaAddrCalc_fits hgood hvalid hfits
    rw [← hhdr, ← hattr,
      xorLanes_address_eq_map (length_of_goodHeader hgood) (length_sub_four_le_of_fits hfits)] at hcalc
    exact exec_of_ok (i := .xmaAddr) hcalc

/-- Settles O51: lane i of each run is a function of its own address byte and key byte. -/
theorem xorLanesAreIndependent : Obligations.XorLanesAreIndependent := by
  unfold Obligations.XorLanesAreIndependent
  intro s s' t t' h h' i hhdr hhdr' _ _ haddr hkey hexec hexec' herr herr'
  obtain ⟨r, hr, rfl⟩ := exec_next_of_errField_zero hexec herr
  obtain ⟨r', hr', rfl⟩ := exec_next_of_errField_zero hexec' herr'
  simp only [calcOf, hhdr] at hr
  simp only [calcOf, hhdr'] at hr'
  rw [succeed_out, succeed_out, xmaEncCalc_lane hr, xmaEncCalc_lane hr', haddr, hkey]

end Sys2Proof.Proofs
end

section
/-!
SUPPORT. Every command reads a header through its length, its byte 0 and its bytes from offset 4 on, and so takes two headers that
agree on those for the same (R101). O25.
-/

namespace Sys2Proof.Machine

open Sys2Proof.Claims

variable {h h' : Bytes}

/-- The header check reads the length and byte 0 only (R100). -/
theorem goodHeader_congr (hagree : AgreeOffBytes1To3 h h') : GoodHeader (some h) ↔ GoodHeader (some h') := by
  obtain ⟨hlen, hlen', hfirst, -⟩ := hagree
  rw [goodHeader_some_iff, goodHeader_some_iff, hlen, hlen', List.getD_eq_getElem?_getD, List.getD_eq_getElem?_getD, hfirst]

/-- The key is header bytes from offset 4 on (R101). -/
theorem keyBytes_congr (hagree : AgreeOffBytes1To3 h h') (n : Nat) : keyBytes h n = keyBytes h' n := by
  obtain ⟨hlen, hlen', -, htail⟩ := hagree
  rw [keyBytes, keyBytes, memRead, memRead, hlen, hlen', htail]

theorem byteAt_congr_from4 (hagree : AgreeOffBytes1To3 h h') {i : Nat} (hi : 4 ≤ i) : byteAt h i = byteAt h' i := by
  obtain ⟨-, -, -, htail⟩ := hagree
  obtain ⟨j, rfl⟩ := Nat.exists_eq_add_of_le hi
  rw [byteAt, byteAt, ← List.getElem?_drop, ← List.getElem?_drop, htail]

/-- Behind a passed header check the XOR commands read header bytes from offset 4 on and no other (R101). -/
theorem calcOf_congr_goodHeader {i : Instr} {s : State} (hi : IsXor i) (hhdr : s.mem.hdr = some h)
    (hagree : AgreeOffBytes1To3 h h') (hgood : GoodHeader (some h)) :
    calcOf i s = calcOf i { s with mem := { s.mem with hdr := some h' } } := by
  have hcheck := checkHeader_of_good hgood
  have hcheck' := checkHeader_of_good ((goodHeader_congr hagree).mp hgood)
  cases i with
  | xmaChk =>
    simp only [calcOf, xmaChkCalc, hhdr, hcheck, hcheck']
    rfl
  | xmaEnc =>
    simp only [calcOf, xmaEncCalc, hhdr, hcheck, hcheck', bind, Except.bind, keyBytes_congr hagree]
  | xmaPort =>
    simp only [calcOf, xmaPortCalc, hhdr, hcheck, hcheck', bind, Except.bind,
      byteAt_congr_from4 hagree (i := 4) (by decide), byteAt_congr_from4 hagree (i := 5) (by decide)]
  | xmaAddr =>
    simp only [calcOf, xmaAddrCalc, hhdr, hcheck, hcheck', bind, Except.bind, keyBytes_congr hagree]
  | tlvEnc _ | maEnc | maVal | maPort | maAddr => exact hi.elim

/-- The commands of the other two codecs do not read HDR at all (R53). -/
theorem agreeOnOperands_of_not_xor {i : Instr} (s : State) (hdr : Option Bytes) (hi : ¬ IsXor i) :
    AgreeOnOperands i s { s with mem := { s.mem with hdr := hdr } } := by
  cases i with
  | tlvEnc _ | maVal | maPort | maAddr => exact rfl
  | maEnc => exact ⟨rfl, rfl⟩
  | xmaChk | xmaEnc | xmaPort | xmaAddr => exact absurd trivial hi

/-- Headers that agree off bytes 1 to 3 give every command the same calculation. -/
theorem calcOf_congr_header (i : Instr) {s : State} (hhdr : s.mem.hdr = some h) (hagree : AgreeOffBytes1To3 h h') :
    calcOf i s = calcOf i { s with mem := { s.mem with hdr := some h' } } := by
  by_cases hi : IsXor i
  · by_cases hgood : GoodHeader (some h)
    · exact calcOf_congr_goodHeader hi hhdr hagree hgood
    · have hbad' := mt (goodHeader_congr hagree).mpr hgood
      rw [calcOf_of_not_goodHeader hi (hhdr ▸ hgood), calcOf_of_not_goodHeader hi hbad']
  · exact calcOf_congr (agreeOnOperands_of_not_xor s _ hi)

end Sys2Proof.Machine

namespace Sys2Proof.Proofs

open Sys2Proof.Machine

/-- Settles O25: both runs end with one calculation, which reads neither header's bytes 1 to 3. -/
theorem headerBytes1To3AreNeverRead : Obligations.HeaderBytes1To3AreNeverRead := by
  unfold Obligations.HeaderBytes1To3AreNeverRead
  intro i s t t' h h' hhdr hagree hexec hexec'
  rw [exec_eq_finish] at hexec hexec'
  rw [calcOf_congr_header i hhdr hagree] at hexec
  exact finish_sameResults hexec hexec'

end Sys2Proof.Proofs
end

section
/-!
SUPPORT. The order of the checks (R126): HDR before ADDR and before ATTR, `Validate` on ATTR before anything is read of it. O33.
-/

namespace Sys2Proof.Proofs

open Sys2Proof.Machine

/-- Settles O33: each clause is the first check that fails, header, then address length or ATTR. -/
theorem firstErrorReachedIsReported : Obligations.FirstErrorReachedIsReported := by
  unfold Obligations.FirstErrorReachedIsReported
  refine ⟨fun i s => exec_of_not_goodHeader, fun s hgood h4 h16 => ?_, fun i s hi habsent => ?_,
    fun i s a => exec_of_attr_invalid, fun i s a => exec_xma_of_attr_invalid⟩
  · obtain ⟨-, hother, -⟩ := xmaEncBuildsTheValue s
    exact hother hgood h4 h16
  · rcases hi with hi | hi | hi | hi
    · exact exec_of_attr_absent (.inl hi) habsent
    · exact exec_of_attr_absent (.inr (.inl hi)) habsent
    · exact exec_of_attr_absent (.inr (.inr hi)) habsent
    · exact exec_xma_of_operand_missing hi (.inr habsent)

end Sys2Proof.Proofs
end

section
/-!
SUPPORT. STATUS after a command word, by its two fields (R15, R125), and what a failure leaves of the rest (R127). O27, O30.
-/

namespace Sys2Proof.Machine

/-- STATUS as a number: DONE is bit 8, ERR the three bits at the bottom, the rest 0 (R15). -/
theorem statusWord_toNat : ∀ err : BitVec 3, (statusWord err).toNat = 0x100 + err.toNat := by decide

/-- ERR reads the code written (R15). -/
@[simp] theorem errField_statusWord : ∀ err : BitVec 3, errField (statusWord err) = err := by decide

/-- After a CMD write STATUS is `statusWord` of a code that R120 lists: 0, or an error kind's. -/
theorem hostCmd_status {w : Word} {s t : State} (h : hostCmd w s = .next t) :
    ∃ err : BitVec 3, err.toNat ≤ 4 ∧ t.status = statusWord err := by
  rcases hostCmd_next h with ⟨i, r, -, -, rfl⟩ | ⟨e, rfl⟩
  · exact ⟨okCode, Nat.zero_le _, rfl⟩
  · exact ⟨e.code, e.code_range.2, rfl⟩

/-- A CMD write that leaves ERR other than 0 raised an error kind (R120, R125). -/
theorem hostCmd_next_of_errField_ne_zero {w : Word} {s t : State} (h : hostCmd w s = .next t)
    (herr : errField t.status ≠ 0) : ∃ e, t = raiseError e s := by
  rcases hostCmd_next h with ⟨i, r, -, -, rfl⟩ | hraised
  · exact absurd errField_success herr
  · exact hraised

end Sys2Proof.Machine

namespace Sys2Proof.Proofs

open Sys2Proof.Machine

/-- Settles O27: a CMD write writes STATUS whole, from one code of at most 4. -/
theorem statusAfterAnyCommand : Obligations.StatusAfterAnyCommand := by
  unfold Obligations.StatusAfterAnyCommand
  intro w s t hcmd
  obtain ⟨err, hle, hstatus⟩ := hostCmd_status hcmd
  rw [hstatus]
  exact ⟨err.toNat, hle, statusWord_toNat err, congrArg BitVec.toNat (errField_statusWord err), doneField_statusWord err⟩

/-- Settles O30: ERR is 0 after a success, so a failure raised, and raising writes an empty OUT and a zero RPORT only. -/
theorem failedCommandLeavesNoResult : Obligations.FailedCommandLeavesNoResult := by
  unfold Obligations.FailedCommandLeavesNoResult
  intro w s t hcmd herr
  obtain ⟨e, rfl⟩ := hostCmd_next_of_errField_ne_zero hcmd herr
  exact ⟨raiseError_out s e, raiseError_rport s e, rfl, rfl, rfl, rfl, rfl⟩

end Sys2Proof.Proofs
end

section
/-!
SUPPORT. A command reads nothing that it writes, so at the state it left it calculates and writes the same again. O26.
-/

namespace Sys2Proof.Machine

/-- No command reads the result state (R10, R53). -/
theorem calcOf_writeResults (i : Instr) (err : BitVec 3) (out : Bytes) (port : Half) (s : State) :
    calcOf i (writeResults err out port s) = calcOf i s := by
  cases i <;> rfl

/-- Of two ends of the same calculation, the second changes nothing (R125). -/
theorem finish_finish {c : Calc Result} {s t : State} (h : finish c s = .next t) : finish c t = .next t := by
  rcases finish_next h with ⟨r, rfl, rfl⟩ | ⟨e, rfl, rfl⟩
  · rfl
  · rfl

end Sys2Proof.Machine

namespace Sys2Proof.Proofs

open Sys2Proof.Machine

/-- Settles O26: both runs end with one calculation, and the second end writes what is already there. -/
theorem commandsAreIdempotent : Obligations.CommandsAreIdempotent := by
  unfold Obligations.CommandsAreIdempotent
  intro i s t hexec
  have hcalc : calcOf i t = calcOf i s := by
    obtain ⟨err, out, port, rfl⟩ := exec_writesResults hexec
    exact calcOf_writeResults i err out port s
  rw [exec_eq_finish] at hexec ⊢
  rw [hcalc]
  exact finish_finish hexec

end Sys2Proof.Proofs
end

section
/-!
SUPPORT. Every command completes, and ends in an outcome that R120's table gives it: the settled results of each command, whose
conditions exhaust the states. O21, O29.
-/

namespace Sys2Proof.Machine

open Sys2Proof.Claims

/-- The command answers a next state, and ERR there is one of its outcomes in R120's table. -/
def Completes (i : Instr) (s : State) : Prop := ∃ t, exec i s = .next t ∧ (errField t.status).toNat ∈ outcomesOf i

/-- ERR of the state the statements write for a success. -/
theorem errField_succeeded (s : State) (out : Bytes) (port : Nat) : (errField (succeeded s out port).status).toNat = 0 :=
  congrArg BitVec.toNat errField_success

/-- ERR of the state the statements write for a failure. -/
theorem errField_failed (s : State) (code : Nat) : (errField (failed s code).status).toNat = code % 8 := by
  simp only [errField, failed, BitVec.extractLsb'_toNat, BitVec.toNat_ofNat, Nat.shiftRight_zero]
  omega

/-- R120's table gives every command the outcome success. -/
theorem zero_mem_outcomesOf (i : Instr) : 0 ∈ outcomesOf i := by
  cases i <;> exact List.mem_cons_self

/-- R120 has no outcome above 4, so the three bits of ERR hold every one. -/
theorem le_four_of_mem_outcomesOf {i : Instr} {code : Nat} (h : code ∈ outcomesOf i) : code ≤ 4 := by
  have hall : ∀ code ∈ outcomesOf i, code ≤ 4 := by cases i <;> simp [outcomesOf]
  exact hall code h

theorem Completes.of_succeeded {i : Instr} {s : State} {out : Bytes} {port : Nat}
    (h : exec i s = .next (succeeded s out port)) : Completes i s := by
  refine ⟨_, h, ?_⟩
  rw [errField_succeeded]
  exact zero_mem_outcomesOf i

theorem Completes.of_failed {i : Instr} {s : State} {code : Nat} (h : exec i s = .next (failed s code))
    (hcode : code ∈ outcomesOf i) : Completes i s := by
  have hle := le_four_of_mem_outcomesOf hcode
  refine ⟨_, h, ?_⟩
  rwa [errField_failed, Nat.mod_eq_of_lt (by omega)]

/-- The accessors complete: ATTR is absent (code 1), fails the command's check `P` (code 3) or passes it. -/
theorem Completes.of_attr {i : Instr} {s : State} {P : Bytes → Prop} (hi : outcomesOf i = [0, 1, 3])
    (habsent : s.mem.attr = none → exec i s = .next (failed s 1))
    (hfail : ∀ a, s.mem.attr = some a → ¬ P a → exec i s = .next (failed s 3))
    (hpass : ∀ a, s.mem.attr = some a → P a → ∃ out port, exec i s = .next (succeeded s out port)) : Completes i s := by
  cases hattr : s.mem.attr with
  | none => exact .of_failed (habsent hattr) (by simp [hi])
  | some a =>
    by_cases ha : P a
    · obtain ⟨out, port, hexec⟩ := hpass a hattr ha
      exact .of_succeeded hexec
    · exact .of_failed (hfail a hattr ha) (by simp [hi])

/-- A value that the length field cannot count stops TLV.ENC on the model's guard (log entry 4). -/
theorem tlvEncCalc_outside (type : Half) {val : Bytes} (h : 65535 < val.length) :
    tlvEncCalc type val = undefinedUse .lengthTooLong := by
  rw [tlvEncCalc, tlvFrame, lengthField, if_neg (by omega)]
  rfl

/-- TLV.ENC answers a next state only for a VAL that the length field can count. -/
theorem val_length_le_of_exec_next {i : Instr} {s t : State} (hi : i.mnemonic = .tlvEnc) (h : exec i s = .next t) :
    s.mem.val.length ≤ 65535 := by
  cases i with
  | tlvEnc type =>
    by_contra hlong
    rw [exec_eq_finish, calcOf, tlvEncCalc_outside type (by omega)] at h
    cases h
  | maEnc | maVal | maPort | maAddr | xmaChk | xmaEnc | xmaPort | xmaAddr => cases hi

end Sys2Proof.Machine

namespace Sys2Proof.Proofs

open Sys2Proof.Machine Sys2Proof.Claims

theorem completes_maEnc (s : State) : Completes .maEnc s := by
  obtain ⟨hipv4, hipv6, hother⟩ := maEncBuildsTheValue s
  by_cases h4 : s.mem.addr.length = 4
  · exact .of_succeeded (hipv4 h4)
  by_cases h16 : s.mem.addr.length = 16
  · exact .of_succeeded (hipv6 h16)
  exact .of_failed (hother h4 h16) (by decide)

theorem completes_maVal (s : State) : Completes .maVal s := by
  obtain ⟨habsent, hpass, hfail⟩ := maValReportsValidate s
  exact .of_attr rfl habsent hfail fun a hattr ha => ⟨_, _, hpass a hattr ha⟩

theorem completes_maPort (s : State) : Completes .maPort s := by
  obtain ⟨habsent, hpass, hfail⟩ := maPortReadsThePort s
  exact .of_attr rfl habsent hfail fun a hattr ha => ⟨_, _, hpass a hattr ha⟩

theorem completes_maAddr (s : State) : Completes .maAddr s := by
  obtain ⟨habsent, hpass, hfail⟩ := maAddrReturnsTheAddress s
  exact .of_attr rfl habsent hfail fun a hattr ⟨hvalid, hfits⟩ => ⟨_, _, hpass a hattr hvalid hfits⟩

/-- On a bad header an XOR command completes with code 1. -/
theorem completes_of_not_goodHeader {i : Instr} {s : State} (hi : IsXor i) (hbad : ¬ GoodHeader s.mem.hdr) :
    Completes i s := by
  refine .of_failed (exec_of_not_goodHeader hi hbad) ?_
  cases i with
  | xmaChk | xmaEnc | xmaPort | xmaAddr => decide
  | tlvEnc _ | maEnc | maVal | maPort | maAddr => exact hi.elim

/-- On a good header XMA.CHK succeeds, XMA.ENC ends by the address length and the accessors by ATTR. -/
theorem completes_of_goodHeader {i : Instr} {s : State} (hi : IsXor i) (hgood : GoodHeader s.mem.hdr) :
    Completes i s := by
  obtain ⟨h, hhdr⟩ := eq_some_of_goodHeader hgood
  cases i with
  | xmaChk =>
    obtain ⟨hpass, -⟩ := xmaChkReportsTheHeader s
    exact .of_succeeded (hpass hgood)
  | xmaEnc =>
    obtain ⟨-, hother, hfamily⟩ := xmaEncBuildsTheValue s
    by_cases haddr : s.mem.addr.length = 4 ∨ s.mem.addr.length = 16
    · exact .of_succeeded (hfamily h hhdr hgood haddr)
    · obtain ⟨h4, h16⟩ := not_or.mp haddr
      exact .of_failed (hother hgood h4 h16) (by decide)
  | xmaPort =>
    obtain ⟨hmissing, hfail, hpass⟩ := xmaPortRecoversThePort s
    exact .of_attr rfl (fun habsent => hmissing (.inr habsent)) (fun a => hfail a hgood)
      fun a hattr ha => ⟨_, _, hpass h a hhdr hgood hattr ha⟩
  | xmaAddr =>
    obtain ⟨hmissing, hfail, hpass⟩ := xmaAddrRecoversTheAddress s
    exact .of_attr rfl (fun habsent => hmissing (.inr habsent)) (fun a => hfail a hgood)
      fun a hattr ⟨hvalid, hfits⟩ => ⟨_, _, hpass h a hhdr hgood hattr hvalid hfits⟩
  | tlvEnc _ | maEnc | maVal | maPort | maAddr => exact hi.elim

theorem completes_xor {i : Instr} (s : State) (hi : IsXor i) : Completes i s := by
  by_cases hgood : GoodHeader s.mem.hdr
  · exact completes_of_goodHeader hi hgood
  · exact completes_of_not_goodHeader hi hgood

/-- Every command completes, TLV.ENC where the length field can count VAL (R70, R129). -/
theorem completes {i : Instr} {s : State} (hval : i.mnemonic = .tlvEnc → s.mem.val.length ≤ 65535) : Completes i s := by
  cases i with
  | tlvEnc type => exact .of_succeeded (tlvEncFramesVal type s (hval rfl))
  | maEnc => exact completes_maEnc s
  | maVal => exact completes_maVal s
  | maPort => exact completes_maPort s
  | maAddr => exact completes_maAddr s
  | xmaChk | xmaEnc | xmaPort | xmaAddr => exact completes_xor s trivial

/-- Where a command answers a next state, it completed there. -/
theorem errField_mem_outcomesOf {i : Instr} {s t : State} (h : exec i s = .next t) :
    (errField t.status).toNat ∈ outcomesOf i := by
  obtain ⟨t', ht', hmem⟩ := completes (i := i) fun hi => val_length_le_of_exec_next hi h
  cases h.symm.trans ht'
  exact hmem

/-- A block in which every command succeeds: a header that passes, an IPv4 address and its value. -/
def goodOperands : State :=
  { State.reset with
    mem := { Memory.reset with hdr := some (zeros 20), addr := zeros 4, attr := some ([0x00, 0x01] ++ zeros 6) } }

/-- A block in which every check behind the header check fails: an address of no family and an ATTR of no bytes. -/
def badOperands : State := { State.reset with mem := { Memory.reset with hdr := some (zeros 20), attr := some [] } }

/-- A state from which each command that can end in the code does: code 1 by the absent HDR and ATTR of reset. -/
def stateOfOutcome : Nat → State
  | 0 => goodOperands
  | 1 => State.reset
  | _ => badOperands

/-- Every outcome of R120's table occurs. -/
theorem outcome_occurs {i : Instr} {code : Nat} (h : code ∈ outcomesOf i) :
    ∃ t, exec i (stateOfOutcome code) = .next t ∧ (errField t.status).toNat = code := by
  cases i with
  | tlvEnc type =>
    obtain rfl := List.mem_singleton.mp h
    exact ⟨_, tlvEncFramesVal type goodOperands (by decide), errField_succeeded _ _ _⟩
  | maEnc | xmaChk =>
    simp only [outcomesOf, List.mem_cons, List.not_mem_nil, or_false] at h
    rcases h with rfl | rfl <;> exact ⟨_, rfl, rfl⟩
  | maVal | maPort | maAddr | xmaEnc | xmaPort | xmaAddr =>
    simp only [outcomesOf, List.mem_cons, List.not_mem_nil, or_false] at h
    rcases h with rfl | rfl | rfl <;> exact ⟨_, rfl, rfl⟩

/-- Settles O21: every command completes, with ERR one of its outcomes. -/
theorem everyCommandCompletes : Obligations.EveryCommandCompletes := by
  unfold Obligations.EveryCommandCompletes
  constructor
  · intro type s hval
    obtain ⟨t, ht, -⟩ := completes (i := .tlvEnc type) fun _ => hval
    exact ⟨t, ht⟩
  · intro i s hi
    obtain ⟨t, ht, -⟩ := completes (s := s) fun htlv => absurd htlv hi
    exact ⟨t, ht⟩

/-- Settles O29: each command completes with one of its outcomes, the states of `stateOfOutcome` reach all of them, and an illegal
word raises. -/
theorem outcomesOfEachCommand : Obligations.OutcomesOfEachCommand := by
  unfold Obligations.OutcomesOfEachCommand
  refine ⟨fun i s t hexec => errField_mem_outcomesOf hexec, fun i code hcode => ⟨_, outcome_occurs hcode⟩,
    fun w e s hw => ?_⟩
  exact ⟨_, hostCmd_of_error s hw, errField_failed s 4⟩

end Sys2Proof.Proofs
end

section
/-!
SUPPORT. What a reset event leaves of a state: the host's agenda and answers, and nothing of the block (R140). O2.
-/

namespace Sys2Proof.Machine

/-- A reset event puts the block to its reset value and keeps the host's own agenda and answers (R140). -/
theorem performEvent_reset (s : State) :
    performEvent .reset s = .next { State.reset with agenda := s.agenda, answers := s.answers } := rfl

end Sys2Proof.Machine

namespace Sys2Proof.Proofs

open Sys2Proof.Machine

/-- Settles O2: the step takes the reset off the agenda, and performing it keeps only the rest of the agenda and the answers. -/
theorem resetEventForgetsEverything : Obligations.ResetEventForgetsEverything := by
  unfold Obligations.ResetEventForgetsEverything
  intro s rest hreset
  rw [step_of_agenda_cons hreset, performEvent_reset]

end Sys2Proof.Proofs
end

section
/-!
SUPPORT. No event of the host meets a guard of the model in a state whose memory has its form (R31, R129). O6.
-/

namespace Sys2Proof.Machine

/-- VAL within its capacity is a value that the length field can count (R5, R70). -/
theorem Memory.val_length_le {m : Memory} (hm : m.wf = true) : m.val.length ≤ 65535 :=
  m.wf_iff.mp hm .val

/-- A command answers a next state from every memory in its form. -/
theorem exec_completes {i : Instr} {s : State} (hs : s.mem.wf = true) : ∃ t, exec i s = .next t := by
  obtain ⟨t, ht, -⟩ := Proofs.completes (i := i) fun _ => Memory.val_length_le hs
  exact ⟨t, ht⟩

/-- A CMD write answers a next state from every memory in its form, whatever the word. -/
theorem hostCmd_completes (w : Word) {s : State} (hs : s.mem.wf = true) : ∃ t, hostCmd w s = .next t := by
  cases hw : decode w with
  | ok i =>
    rw [hostCmd_of_ok s hw]
    exact exec_completes hs
  | error e => exact ⟨_, hostCmd_of_error s hw⟩

theorem hostLoad_ne_fault (b : Buffer) (bs : Bytes) (s : State) (f : Fault) : hostLoad b bs s ≠ .fault f := by
  unfold hostLoad
  split
  · simp
  · split <;> simp

/-- A host action runs a command word, which completes, or takes place or is refused (R38). -/
theorem perform_ne_fault {a : HostAction} {s : State} (hs : s.mem.wf = true) (f : Fault) : perform a s ≠ .fault f := by
  cases a with
  | load b bs => exact hostLoad_ne_fault b bs s f
  | absent b =>
    simp only [perform, hostAbsent]
    split <;> simp
  | setPort v =>
    simp only [perform, hostSetPort]
    split <;> simp
  | cmd w =>
    obtain ⟨t, ht⟩ := hostCmd_completes w hs
    simp [perform, ht]
  | read x =>
    simp only [perform, hostRead]
    split <;> simp
  | copy b =>
    simp only [perform, hostCopy]
    split
    · exact hostLoad_ne_fault b s.mem.out s f
    · simp

/-- A reset takes place in every state (R140). -/
theorem performEvent_ne_fault {e : Event} {s : State} (hs : s.mem.wf = true) (f : Fault) : performEvent e s ≠ .fault f := by
  cases e with
  | action a => exact perform_ne_fault hs f
  | reset => simp [performEvent_reset]

end Sys2Proof.Machine

namespace Sys2Proof.Proofs

open Sys2Proof.Machine

/-- Settles O6: an idle step and a reset take place, and of the host actions only a CMD write calculates, which completes. -/
theorem noStepFaults : Obligations.NoStepFaults := by
  unfold Obligations.NoStepFaults
  intro s f hs
  cases hagenda : s.agenda with
  | nil => simp [step_of_agenda_nil hagenda]
  | cons e rest =>
    rw [step_of_agenda_cons hagenda]
    exact performEvent_ne_fault (s := { s with agenda := rest }) hs f

end Sys2Proof.Proofs
end

section
/-!
SUPPORT. The same word from the same operand state does the same to the results (R10). O23.
-/

namespace Sys2Proof.Machine

open Sys2Proof.Claims

/-- The operands that R53 lists for a command are part of the operand state (R21). -/
theorem agreeOnOperands_of_sameOperands (i : Instr) {s s' : State} (h : SameOperands s s') : AgreeOnOperands i s s' := by
  obtain ⟨hport, hhdr, haddr, hval, hattr⟩ := h
  cases i with
  | tlvEnc _ => exact hval
  | maEnc => exact ⟨haddr, hport⟩
  | maVal | maPort | maAddr => exact hattr
  | xmaChk => exact hhdr
  | xmaEnc => exact ⟨hhdr, haddr, hport⟩
  | xmaPort | xmaAddr => exact ⟨hhdr, hattr⟩

end Sys2Proof.Machine

namespace Sys2Proof.Proofs

open Sys2Proof.Machine

/-- Settles O23: a word that decodes runs one command in both states, on operands they share, and any other word fails with code 4. -/
theorem resultsDependOnOperandsAlone : Obligations.ResultsDependOnOperandsAlone := by
  unfold Obligations.ResultsDependOnOperandsAlone
  intro w s s' t t' hsame hcmd hcmd'
  rw [perform] at hcmd hcmd'
  cases hw : decode w with
  | ok i =>
    rw [hostCmd_of_ok _ hw] at hcmd hcmd'
    exact commandsReadListedOperandsOnly i s s' t t' (agreeOnOperands_of_sameOperands i hsame) hcmd hcmd'
  | error e =>
    rw [hostCmd_of_error _ hw] at hcmd hcmd'
    cases hcmd; cases hcmd'
    exact ⟨rfl, rfl, rfl⟩

end Sys2Proof.Proofs
end

section
/-!
SUPPORT. The framed value of TLV.ENC as one sequence of bytes: what its fields read and that it determines type and value (R70, R73),
and the length of OUT after each command (R19). O32, O35.
-/

namespace Sys2Proof.Machine

open Sys2Proof.Claims

/-- The bytes that TLV.ENC leaves in OUT (R70, R72). -/
def tlvBytes (type : Half) (val : Bytes) : Bytes :=
  bigEndian2 type.toNat ++ bigEndian2 val.length ++ val ++ List.replicate ((4 - val.length % 4) % 4) 0x00#8

theorem tlvBytes_length (type : Half) (val : Bytes) : (tlvBytes type val).length = 4 + 4 * ((val.length + 3) / 4) := by
  simp only [tlvBytes, bigEndian2, List.length_append, List.length_cons, List.length_nil, List.length_replicate]
  omega

/-- A number of 16 bits is the one its two big-endian bytes read (R7). -/
theorem bigEndian2_value {v : Nat} (h : v < 65536) :
    (BitVec.ofNat 8 (v / 256)).toNat * 256 + (BitVec.ofNat 8 (v % 256)).toNat = v := by
  rw [BitVec.toNat_ofNat, BitVec.toNat_ofNat]
  omega

theorem tlvBytes_type (type : Half) (val : Bytes) :
    byteNat (tlvBytes type val) 0 * 256 + byteNat (tlvBytes type val) 1 = type.toNat :=
  bigEndian2_value type.isLt

theorem tlvBytes_lengthField (type : Half) {val : Bytes} (h : val.length ≤ 65535) :
    byteNat (tlvBytes type val) 2 * 256 + byteNat (tlvBytes type val) 3 = val.length :=
  bigEndian2_value (Nat.lt_succ_of_le h)

/-- Behind the 4-byte TLV header stand the value and its padding (R70). -/
theorem tlvBytes_drop4 (type : Half) (val : Bytes) :
    (tlvBytes type val).drop 4 = val ++ List.replicate ((4 - val.length % 4) % 4) 0x00#8 := rfl

theorem tlvBytes_value (type : Half) (val : Bytes) : ((tlvBytes type val).drop 4).take val.length = val := by
  rw [tlvBytes_drop4, List.take_left]

theorem tlvBytes_padding {type : Half} {val : Bytes} {b : Byte} (h : b ∈ (tlvBytes type val).drop (4 + val.length)) :
    b = 0x00#8 := by
  rw [← List.drop_drop, tlvBytes_drop4, List.drop_left] at h
  exact List.eq_of_mem_replicate h

/-- A framed value is framed in one way: the fields read the type and the length, and the length bounds the value (R73 (g)). -/
theorem tlvBytes_injective {type type' : Half} {val val' : Bytes} (hval : val.length ≤ 65535) (hval' : val'.length ≤ 65535)
    (h : tlvBytes type' val' = tlvBytes type val) : type' = type ∧ val' = val := by
  have htype : type'.toNat = type.toNat := by rw [← tlvBytes_type type' val', h, tlvBytes_type]
  have hlen : val'.length = val.length := by rw [← tlvBytes_lengthField type' hval', h, tlvBytes_lengthField type hval]
  have hvalue : val' = val := by rw [← tlvBytes_value type' val', h, hlen, tlvBytes_value]
  exact ⟨BitVec.eq_of_toNat_eq htype, hvalue⟩

/-- OUT after a command is the bytes its calculation answered, or empty (R125). -/
theorem exec_out {i : Instr} {s t : State} (h : exec i s = .next t) :
    (∃ r, calcOf i s = .ok r ∧ t.mem.out = r.out) ∨ t.mem.out = [] := by
  rcases exec_next h with ⟨r, hr, rfl⟩ | ⟨e, -, rfl⟩
  · exact .inl ⟨r, hr, rfl⟩
  · exact .inr rfl

/-- OUT_LEN counts the bytes of OUT: its 32 bits hold the output capacity (R5, R19). -/
theorem outLen_toNat {s : State} (h : s.mem.out.length ≤ Buffer.out.capacity) : (outLen s).toNat = s.mem.out.length := by
  have hcap : s.mem.out.length ≤ 65540 := h
  rw [outLen, BitVec.toNat_ofNat, Nat.mod_eq_of_lt (by omega)]

/-- After a command OUT is within its capacity, whatever it held before. -/
theorem exec_out_length_le {i : Instr} {s t : State} (h : exec i s = .next t) : t.mem.out.length ≤ Buffer.out.capacity := by
  rcases exec_out h with ⟨r, hr, hout⟩ | hout
  · rw [hout]
    exact calcOf_out_length_le hr
  · rw [hout]
    exact Nat.zero_le _

/-- The address lengths of R80. -/
theorem Family.addrLen_eq (f : Family) : f.addrLen = 4 ∨ f.addrLen = 16 := exists_addrLen_iff.mp ⟨f, rfl⟩

/-- An encoder answers the 4-byte value header and an address (R82, R103). -/
theorem calcOf_encoder_out_length {i : Instr} {s : State} {r : Result} (hi : i = .maEnc ∨ i = .xmaEnc)
    (h : calcOf i s = .ok r) : ∃ f : Family, r.out.length = 4 + f.addrLen := by
  rcases hi with rfl | rfl
  · obtain ⟨f, haddr, rfl⟩ := maEncCalc_ok h
    exact ⟨f, by simp [haddr]⟩
  · obtain ⟨hb, f, hhdr, haddr, rfl⟩ := xmaEncCalc_ok h
    obtain ⟨-, hlen, -⟩ := checkHeader_ok hhdr
    have hle := f.addrLen_le
    refine ⟨f, ?_⟩
    simp only [valueLayout_length, xorLanes_length, bytesBe16_length, List.length_take, List.length_drop]
    omega

/-- An address accessor answers an address (R87, R105). -/
theorem calcOf_address_out_length {i : Instr} {s : State} {r : Result} (hi : i = .maAddr ∨ i = .xmaAddr)
    (h : calcOf i s = .ok r) : ∃ f : Family, r.out.length = f.addrLen := by
  rcases hi with rfl | rfl
  · obtain ⟨a, f, -, -, ha, rfl⟩ := maAddrCalc_ok h
    exact ⟨f, by simp [ha]⟩
  · obtain ⟨hb, a, f, hhdr, -, -, ha, rfl⟩ := xmaAddrCalc_ok h
    obtain ⟨-, hlen, -⟩ := checkHeader_ok hhdr
    have hle := f.addrLen_le
    refine ⟨f, ?_⟩
    simp only [xorLanes_length, List.length_take, List.length_drop]
    omega

/-- The checks and the port accessors answer no bytes (R84, R85, R102, R104). -/
theorem calcOf_out_eq_nil {i : Instr} {s : State} {r : Result} (hi : i = .maVal ∨ i = .maPort ∨ i = .xmaChk ∨ i = .xmaPort)
    (h : calcOf i s = .ok r) : r.out = [] := by
  rcases hi with rfl | rfl | rfl | rfl
  · obtain ⟨a, -, rfl⟩ := maValCalc_ok h
    rfl
  · obtain ⟨a, p, -, -, rfl⟩ := maPortCalc_ok h
    rfl
  · obtain ⟨hb, -, rfl⟩ := xmaChkCalc_ok h
    rfl
  · obtain ⟨hb, a, hi, lo, khi, klo, -, -, -, -, -, -, rfl⟩ := xmaPortCalc_ok h
    rfl

end Sys2Proof.Machine

namespace Sys2Proof.Proofs

open Sys2Proof.Machine Sys2Proof.Claims

/-- OUT after TLV.ENC is the framed value. -/
theorem exec_tlvEnc_out {type : Half} {s t : State} (h : exec (.tlvEnc type) s = .next t) :
    t.mem.out = tlvBytes type s.mem.val := by
  have hframed := tlvEncFramesVal type s (val_length_le_of_exec_next rfl h)
  cases h.symm.trans hframed
  rfl

/-- Settles O35: the laws (a) to (f) are read off the framed value, and (g) follows from them. -/
theorem framedAttributeLaws : Obligations.FramedAttributeLaws := by
  unfold Obligations.FramedAttributeLaws
  intro type s hval
  have hexec := tlvEncFramesVal type s hval
  have hout := exec_tlvEnc_out hexec
  refine ⟨_, hexec, ?_⟩
  rw [hout, tlvBytes_length]
  refine ⟨rfl, by omega, by omega, by omega, tlvBytes_type type _, tlvBytes_lengthField type hval, tlvBytes_value type _,
    fun b hb => tlvBytes_padding hb, fun type' s' t' hval' hexec' heq => ?_⟩
  rw [exec_tlvEnc_out hexec'] at heq
  exact tlvBytes_injective hval hval' heq

/-- Settles O32: OUT is empty after a failure, and after a success the length is that of a frame, a value, an address or nothing. -/
theorem outLengthsACommandLeaves : Obligations.OutLengthsACommandLeaves := by
  unfold Obligations.OutLengthsACommandLeaves
  intro i s t hexec
  refine ⟨outLen_toNat (exec_out_length_le hexec), fun htlv => ?_, fun henc => ?_, fun haddr => ?_, fun hnone => ?_⟩
  · have hval := val_length_le_of_exec_next htlv hexec
    cases i with
    | tlvEnc type =>
      rw [exec_tlvEnc_out hexec, tlvBytes_length]
      omega
    | maEnc | maVal | maPort | maAddr | xmaChk | xmaEnc | xmaPort | xmaAddr => cases htlv
  · rcases exec_out hexec with ⟨r, hr, hout⟩ | hout
    · obtain ⟨f, hlen⟩ := calcOf_encoder_out_length henc hr
      rcases f.addrLen_eq with hf | hf <;> simp [hout, hlen, hf]
    · simp [hout]
  · rcases exec_out hexec with ⟨r, hr, hout⟩ | hout
    · obtain ⟨f, hlen⟩ := calcOf_address_out_length haddr hr
      rcases f.addrLen_eq with hf | hf <;> simp [hout, hlen, hf]
    · simp [hout]
  · rcases exec_out hexec with ⟨r, hr, hout⟩ | hout
    · rw [hout, calcOf_out_eq_nil hnone hr]
      rfl
    · rw [hout]
      rfl

end Sys2Proof.Proofs
end

section
/-!
SUPPORT. What the two encoders build passes both checks of ATTR and gives its fields back (R88, R106), and framing it adds no padding
(R82). O42, O44, O49.
-/

namespace Sys2Proof.Machine

open Sys2Proof.Claims

section Layout

variable {f : Family} {addrField : Bytes}

/-- The value layout of any port bytes passes `Validate` (R81, R83). -/
theorem validBytes_valueLayout (x y : Byte) (h : addrField.length = f.addrLen) : ValidBytes (valueLayout f [x, y] addrField) := by
  have hmod := f.addrLen_mod
  refine ⟨?_, ?_, rfl⟩
  all_goals
    simp only [valueLayout_length, List.length_cons, List.length_nil]
    omega

/-- It carries its family's tag and has the length of that family's value (R81, R86). -/
theorem tagFitsLength_valueLayout (x y : Byte) (h : addrField.length = f.addrLen) :
    TagFitsLength (valueLayout f [x, y] addrField) :=
  tagFitsLength_iff.mpr ⟨f, rfl, by simp [h]⟩

theorem valueLayout_drop4 (x y : Byte) : (valueLayout f [x, y] addrField).drop 4 = addrField := rfl

/-- Within 4 + 16 bytes a value fits ATTR (R5). -/
theorem valueLayout_length_le (x y : Byte) (h : addrField.length = f.addrLen) :
    (valueLayout f [x, y] addrField).length ≤ Buffer.attr.capacity := by
  have hle := f.addrLen_le
  change _ ≤ 32
  simp only [valueLayout_length, List.length_cons, List.length_nil]
  omega

end Layout

/-- MA.PORT gives back the port of a value layout (R88). -/
theorem maPortCalc_layout {addrField : Bytes} {f : Family} (p : Half) (h : addrField.length = f.addrLen) :
    maPortCalc (some (valueLayout f (bytesBe16 p) addrField)) = .ok ⟨[], p⟩ := by
  have hvalid : ValidBytes (valueLayout f (bytesBe16 p) addrField) := validBytes_valueLayout _ _ h
  rw [maPortCalc, validate_of_valid hvalid]
  change Except.ok (Result.mk [] (be16 (highByte p) (lowByte p))) = _
  rw [be16_bytes]

/-- A value that is a whole number of 4-byte groups is framed without padding (R71). -/
theorem tlvBytes_of_aligned (type : Half) {val : Bytes} (h : val.length % 4 = 0) :
    tlvBytes type val = bigEndian2 type.toNat ++ bigEndian2 val.length ++ val := by
  rw [tlvBytes, h]
  exact List.append_nil _

/-- XMA.ENC builds the value layout with the two port bytes XORed with header bytes 4 and 5 (R103). -/
theorem xmaEncCalc_layout {h addr : Bytes} {f : Family} (port : Word) (hgood : GoodHeader (some h))
    (haddr : addr.length = f.addrLen) :
    xmaEncCalc (some h) addr port =
      .ok ⟨valueLayout f [highByte (portLow16 port) ^^^ h.getD 4 0, lowByte (portLow16 port) ^^^ h.getD 5 0]
        (xorLanes addr ((h.drop 4).take addr.length)), 0⟩ := by
  rw [xmaEncCalc_family port hgood haddr, bytesBe16, xorLanes_key_pair _ _ (length_of_goodHeader hgood)]

/-- The key covers every address of a family, so XORing with it keeps the length (R101). -/
theorem xorLanes_key_length {h addr : Bytes} {f : Family} (hlen : h.length = 20) (haddr : addr.length = f.addrLen) :
    (xorLanes addr ((h.drop 4).take addr.length)).length = addr.length := by
  have hle := f.addrLen_le
  simp only [xorLanes_length, List.length_take, List.length_drop]
  omega

/-- XMA.PORT gives back a port that was XORed under the same header (R106). -/
theorem xmaPortCalc_layout {h addrField : Bytes} {f : Family} (p : Half) (hgood : GoodHeader (some h))
    (hfield : addrField.length = f.addrLen) :
    xmaPortCalc (some h) (some (valueLayout f [highByte p ^^^ h.getD 4 0, lowByte p ^^^ h.getD 5 0] addrField)) =
      .ok ⟨[], p⟩ := by
  rw [xmaPortCalc_valid hgood (validBytes_valueLayout _ _ hfield)]
  change Except.ok (Result.mk [] (be16 (highByte p ^^^ h.getD 4 0 ^^^ h.getD 4 0) (lowByte p ^^^ h.getD 5 0 ^^^ h.getD 5 0))) = _
  rw [xor_cancel_right, xor_cancel_right, be16_bytes]

/-- XMA.ADDR gives back an address that was XORed under the same header (R106). -/
theorem xmaAddrCalc_layout {h addr : Bytes} {f : Family} (x y : Byte) (hgood : GoodHeader (some h))
    (haddr : addr.length = f.addrLen) :
    xmaAddrCalc (some h) (some (valueLayout f [x, y] (xorLanes addr ((h.drop 4).take addr.length)))) = .ok ⟨addr, 0⟩ := by
  have hlen := length_of_goodHeader hgood
  have hle := f.addrLen_le
  have hlanes := xorLanes_key_length hlen haddr
  have hfield := hlanes.trans haddr
  rw [xmaAddrCalc_fits hgood (validBytes_valueLayout x y hfield) (tagFitsLength_valueLayout x y hfield), valueLayout_drop4,
    valueLayout_length, hlanes]
  have hn : 2 + [x, y].length + addr.length - 4 = addr.length := by simp only [List.length_cons, List.length_nil]; omega
  rw [hn, xorLanes_twice (by simp only [List.length_take, List.length_drop]; omega)]

end Sys2Proof.Machine

namespace Sys2Proof.Proofs

open Sys2Proof.Machine Sys2Proof.Claims

/-- Settles O42: the value MA.ENC builds fits ATTR, passes both checks there, and holds the port bytes and the address as they are. -/
theorem plainRoundTrip : Obligations.PlainRoundTrip := by
  unfold Obligations.PlainRoundTrip
  intro s haddr
  obtain ⟨f, hf⟩ := exists_addrLen_iff.mpr haddr
  have hvalid : ValidBytes (valueLayout f (bytesBe16 (portLow16 s.port)) s.mem.addr) := validBytes_valueLayout _ _ hf
  have hfits : TagFitsLength (valueLayout f (bytesBe16 (portLow16 s.port)) s.mem.addr) := tagFitsLength_valueLayout _ _ hf
  refine ⟨_, _, exec_of_ok (i := .maEnc) (maEncCalc_family s.port hf),
    hostLoad_fits _ (by decide) (valueLayout_length_le _ _ hf), ?_, ?_, ?_⟩
  · exact exec_of_ok (i := .maVal) (r := ⟨[], 0⟩) (maValCalc_valid hvalid)
  · rw [← portLow16_toNat]
    exact exec_of_ok (i := .maPort) (r := ⟨[], portLow16 s.port⟩) (maPortCalc_layout (portLow16 s.port) hf)
  · exact exec_of_ok (i := .maAddr) (r := ⟨s.mem.addr, 0⟩) (maAddrCalc_fits hvalid hfits)

/-- Settles O44: the value is 8 or 20 bytes, fits VAL, and is a whole number of 4-byte groups. -/
theorem framingAMappedAddressAddsNoPadding : Obligations.FramingAMappedAddressAddsNoPadding := by
  unfold Obligations.FramingAMappedAddressAddsNoPadding
  intro type s haddr
  obtain ⟨f, hf⟩ := exists_addrLen_iff.mpr haddr
  obtain ⟨-, hmod, -⟩ : ValidBytes (valueLayout f (bigEndian2 (s.port.toNat % 65536)) s.mem.addr) :=
    validBytes_valueLayout _ _ hf
  have hlen : (valueLayout f (bigEndian2 (s.port.toNat % 65536)) s.mem.addr).length ≤ 32 := valueLayout_length_le _ _ hf
  have hval := hlen.trans (show 32 ≤ 65535 by decide)
  exact ⟨_, _, _, exec_maEnc_of_family hf, hostCopy_fits (b := .val) _ rfl hval, tlvEncFramesVal type _ hval,
    tlvBytes_of_aligned type hmod⟩

/-- Settles O49: the value XMA.ENC builds fits ATTR, and the accessors XOR its fields with the key that XMA.ENC XORed them with. -/
theorem xorRoundTrip : Obligations.XorRoundTrip := by
  unfold Obligations.XorRoundTrip
  intro s hgood haddr
  obtain ⟨f, hf⟩ := exists_addrLen_iff.mpr haddr
  obtain ⟨h, hhdr⟩ := eq_some_of_goodHeader hgood
  rw [hhdr] at hgood
  have hlanes := xorLanes_key_length (length_of_goodHeader hgood) hf
  have hencode := xmaEncCalc_layout s.port hgood hf
  rw [← hhdr] at hencode
  have hport := xmaPortCalc_layout (portLow16 s.port) hgood (hlanes.trans hf)
  have haddress := xmaAddrCalc_layout (highByte (portLow16 s.port) ^^^ h.getD 4 0) (lowByte (portLow16 s.port) ^^^ h.getD 5 0)
    hgood hf
  rw [← hhdr] at hport haddress
  refine ⟨_, _, exec_of_ok (i := .xmaEnc) hencode, ?_,
    hostLoad_fits _ (by decide) (valueLayout_length_le _ _ (hlanes.trans hf)), ?_, ?_⟩
  · change (valueLayout f _ _).length = _
    rw [valueLayout_length, hlanes]
    rfl
  · rw [← portLow16_toNat]
    exact exec_of_ok (i := .xmaPort) (r := ⟨[], portLow16 s.port⟩) hport
  · exact exec_of_ok (i := .xmaAddr) (r := ⟨s.mem.addr, 0⟩) haddress

end Sys2Proof.Proofs
end

section
/-!
SUPPORT. The plain value under an XOR value (R107): XORing the key over the value takes XMA.ENC's value to MA.ENC's and back, and the
checks and accessors of the XOR codec to those of the plain codec. O50.
-/

namespace Sys2Proof.Machine

open Sys2Proof.Claims

/-- The key of R107 over a value with an address field of n bytes: nothing over the reserved byte and the tag, and the key from its
start over the port and over the address. -/
def valueKey (h : Bytes) (n : Nat) : Bytes := [0x00#8, 0x00#8, h.getD 4 0, h.getD 5 0] ++ (h.drop 4).take n

/-- The value with the key of R107 XORed over it. -/
def plainValue (h a : Bytes) : Bytes := xorLanes a (valueKey h (a.length - 4))

/-- The key of R107 over a value, field by field. -/
theorem xorLanes_valueKey (h : Bytes) (w x y z : Byte) (rest : Bytes) :
    xorLanes (w :: x :: y :: z :: rest) (valueKey h rest.length) =
      w :: x :: (y ^^^ h.getD 4 0) :: (z ^^^ h.getD 5 0) :: xorLanes rest ((h.drop 4).take rest.length) := by
  simp [xorLanes, valueKey]

theorem plainValue_eq (h : Bytes) {a : Bytes} (ha : 4 ≤ a.length) :
    plainValue h a =
      a.getD 0 0 :: a.getD 1 0 :: (a.getD 2 0 ^^^ h.getD 4 0) :: (a.getD 3 0 ^^^ h.getD 5 0) ::
        xorLanes (a.drop 4) ((h.drop 4).take (a.length - 4)) := by
  match a, ha with
  | w :: x :: y :: z :: rest, _ => exact xorLanes_valueKey h w x y z rest

section Checks

variable {h a : Bytes}

theorem plainValue_length (hh : h.length = 20) (ha : a.length ≤ 20) : (plainValue h a).length = a.length := by
  simp only [plainValue, valueKey, xorLanes_length, List.length_append, List.length_cons, List.length_nil, List.length_take,
    List.length_drop]
  omega

theorem plainValue_reserved (ha : 4 ≤ a.length) : (plainValue h a)[0]? = a[0]? := by
  have hpos : 0 < a.length := by omega
  simp [plainValue_eq h ha, hpos]

theorem plainValue_tag (ha : 4 ≤ a.length) : (plainValue h a)[1]? = a[1]? := by
  have htag : 1 < a.length := by omega
  simp [plainValue_eq h ha, htag]

/-- `Validate` reads the length and the reserved byte, which the key leaves (R83, R107). -/
theorem validBytes_plainValue_iff (hh : h.length = 20) (hfour : 4 ≤ a.length) (hle : a.length ≤ 20) :
    ValidBytes (plainValue h a) ↔ ValidBytes a := by
  rw [ValidBytes, ValidBytes, plainValue_length hh hle, plainValue_reserved hfour]

/-- `TagLenCheck` reads the length and the tag, which the key leaves (R86, R107). -/
theorem tagFitsLength_plainValue_iff (hh : h.length = 20) (hfour : 4 ≤ a.length) (hle : a.length ≤ 20) :
    TagFitsLength (plainValue h a) ↔ TagFitsLength a := by
  rw [TagFitsLength, TagFitsLength, plainValue_length hh hle, plainValue_tag hfour]

/-- XMA.PORT of a value that passes `Validate` is MA.PORT of its plain value (R107). -/
theorem xmaPortCalc_eq_maPortCalc (hgood : GoodHeader (some h)) (hvalid : ValidBytes a) (hplain : ValidBytes (plainValue h a)) :
    xmaPortCalc (some h) (some a) = maPortCalc (some (plainValue h a)) := by
  obtain ⟨p, hcalc, hp⟩ := maPortCalc_valid hplain
  rw [plainValue_eq h (four_le_of_valid hvalid)] at hp
  have hport : be16 (a.getD 2 0 ^^^ h.getD 4 0) (a.getD 3 0 ^^^ h.getD 5 0) = p := by
    apply BitVec.eq_of_toNat_eq
    rw [be16_toNat, hp]
    rfl
  rw [xmaPortCalc_valid hgood hvalid, hcalc, hport]

/-- XMA.ADDR of a value that passes both checks is MA.ADDR of its plain value (R107). -/
theorem xmaAddrCalc_eq_maAddrCalc (hgood : GoodHeader (some h)) (hvalid : ValidBytes a) (hplain : ValidBytes (plainValue h a))
    (hfits : TagFitsLength a ↔ TagFitsLength (plainValue h a)) :
    xmaAddrCalc (some h) (some a) = maAddrCalc (some (plainValue h a)) := by
  by_cases htag : TagFitsLength a
  · rw [xmaAddrCalc_fits hgood hvalid htag, maAddrCalc_fits hplain (hfits.mp htag), plainValue_eq h (four_le_of_valid hvalid)]
    rfl
  · rw [xmaAddrCalc_not_fits hgood hvalid htag, maAddrCalc_not_fits hplain fun hp => htag (hfits.mpr hp)]

end Checks

/-- An accessor of the XOR codec and the same accessor of the plain codec. -/
def SameAccessor (i j : Instr) : Prop := (i = .xmaPort ∧ j = .maPort) ∨ (i = .xmaAddr ∧ j = .maAddr)

/-- Behind a good header an accessor of the XOR codec calculates what the plain one calculates on the plain value (R107). -/
theorem calcOf_xma_eq_calcOf_ma {i j : Instr} {s : State} {h a : Bytes} (hij : SameAccessor i j) (hhdr : s.mem.hdr = some h)
    (hgood : GoodHeader (some h)) (hattr : s.mem.attr = some a) (hfour : 4 ≤ a.length) (hle : a.length ≤ 20) :
    calcOf i s = calcOf j { s with mem := { s.mem with attr := some (plainValue h a) } } := by
  have hlen := length_of_goodHeader hgood
  have hiff := validBytes_plainValue_iff hlen hfour hle
  by_cases hvalid : ValidBytes a
  · have hplain := hiff.mpr hvalid
    rcases hij with ⟨rfl, rfl⟩ | ⟨rfl, rfl⟩
    · rw [calcOf, calcOf, hhdr, hattr]
      exact xmaPortCalc_eq_maPortCalc hgood hvalid hplain
    · rw [calcOf, calcOf, hhdr, hattr]
      exact xmaAddrCalc_eq_maAddrCalc hgood hvalid hplain (tagFitsLength_plainValue_iff hlen hfour hle).symm
  · have hi : i = .xmaPort ∨ i = .xmaAddr := hij.imp And.left And.left
    have hj : j = .maVal ∨ j = .maPort ∨ j = .maAddr := .inr (hij.imp And.right And.right)
    have hraised : validate s.mem.attr = raised .malformedAttribute := by rw [hattr, validate_of_not_valid hvalid]
    rw [calcOf_of_validate_raised hi (hhdr ▸ hgood) hraised,
      calcOf_of_attr_invalid (a := plainValue h a) hj rfl (mt hiff.mp hvalid)]

end Sys2Proof.Machine

namespace Sys2Proof.Proofs

open Sys2Proof.Machine Sys2Proof.Claims

/-- Commands other than TLV.ENC that calculate the same complete with the same results. -/
theorem exec_sameResults {i j : Instr} {s s' : State} (hi : i.mnemonic ≠ .tlvEnc) (hj : j.mnemonic ≠ .tlvEnc)
    (h : calcOf i s = calcOf j s') : ∃ t u, exec i s = .next t ∧ exec j s' = .next u ∧ SameResults t u := by
  obtain ⟨-, hcompletes⟩ := everyCommandCompletes
  obtain ⟨t, ht⟩ := hcompletes i s hi
  obtain ⟨u, hu⟩ := hcompletes j s' hj
  refine ⟨t, u, ht, hu, ?_⟩
  rw [exec_eq_finish] at ht hu
  rw [h] at ht
  exact finish_sameResults ht hu

/-- Settles O50: the encoders answer the same layout but for the key, and the accessors calculate the same on a value and its plain
value. -/
theorem xorCodecIsPlainCodecUnderTheKey : Obligations.XorCodecIsPlainCodecUnderTheKey := by
  unfold Obligations.XorCodecIsPlainCodecUnderTheKey
  intro s h hhdr hgood
  rw [hhdr] at hgood
  refine ⟨fun haddr => ?_, fun a hattr ha i j hij => ?_⟩
  · obtain ⟨f, hf⟩ := exists_addrLen_iff.mpr haddr
    have hencode := xmaEncCalc_layout s.port hgood hf
    rw [← hhdr] at hencode
    exact ⟨_, _, exec_of_ok (i := .maEnc) (maEncCalc_family s.port hf), exec_of_ok (i := .xmaEnc) hencode,
      (xorLanes_valueKey h 0x00#8 f.tag _ _ s.mem.addr).symm⟩
  · have hcalc := calcOf_xma_eq_calcOf_ma hij hhdr hgood hattr (by omega) (by omega)
    have hi : i.mnemonic ≠ .tlvEnc := by rcases hij with ⟨rfl, -⟩ | ⟨rfl, -⟩ <;> decide
    have hj : j.mnemonic ≠ .tlvEnc := by rcases hij with ⟨-, rfl⟩ | ⟨-, rfl⟩ <;> decide
    exact exec_sameResults hi hj hcalc

end Sys2Proof.Proofs
end
